-- ==== Sys2Proof/Word.lean ====
section
/-! DEFINITION. The bit-vector types of the machine (00_scope.md R4, R5, R7). A type written without its width has the
spec's default: XLEN = 16 and PCW = 16 (the spec's decisions D2, D3). -/

namespace Sys2Proof

/-- What a general register or a data-memory word holds: XLEN bits (R7, R11). It is also a data-memory address (R22). -/
abbrev Word (xlen : Nat := 16) := BitVec xlen

/-- What the program counter holds, an instruction-memory address: PCW bits (R13). -/
abbrev PC (pcw : Nat := 16) := BitVec pcw

/-- One instruction, seen as a number with document column 0 as bit 15 (R50, R51). -/
abbrev InstrWord := BitVec 16

/-- The number of a general register: every register field has 4 bits and names one of 16 (R10). -/
abbrev Reg := BitVec 4

end Sys2Proof
end

