-- ==== Sys2Proof/Config.lean ====
section
/-! DEFINITION. The parameters that the source leaves open, as 00_scope.md R5 names them, and the model's one free value.
The values this machine takes (the spec's defaults) stand in Machine/Params.lean. -/

namespace Sys2Proof

/-- MEM_ORG (R5): instruction and data memory are separate, or one memory (R40, R41; D5). -/
inductive MemOrg where
  | harvard
  | unified
  deriving DecidableEq, Repr

/-- Which of the two shifts asks `shiftBig` (R5: `ShiftBig(op, v, amt)`). -/
inductive ShiftOp where
  | shl
  | shr
  deriving DecidableEq, Repr

/-- RESERVED_CMP (R5): what a compare word with Nop? in 1 .. 14 does. Beside the default stand the two decoders that R125
and D14 say a chip may have; this machine has neither. -/
inductive ReservedCmp where
  /-- The model stop ReservedEncoding, the default. -/
  | stop
  /-- A chip that tests only for Nop? = 0b1111 compares. -/
  | compare
  /-- A chip that tests only for Nop? = 0 does nothing. -/
  | nothing
  deriving DecidableEq, Repr

/-- The parameters of R5 of a machine with words of XLEN bits and a program counter of PCW bits, the two widths among
them (`Parameters`). -/
structure Config (xlen pcw : Nat) where
  /-- BIT0_IS_MSB: document column 0 is the most significant bit, in the word and in each field (D1). -/
  bit0IsMsb : Bool
  /-- PC_UNIT, as the number of pc units that one 16-bit instruction takes: 1 where one unit is one instruction, 2 where pc
  counts bytes (D3). -/
  unitsPerInstr : Nat
  /-- BRANCH_BASE: what a taken jump adds to its own address before the offset, in pc units (D4; log entry 6). -/
  branchBase : PC pcw
  /-- MEM_ORG (D5). -/
  memOrg : MemOrg
  /-- DMEM_WORDS: how many data-memory words exist (D6, D20). -/
  dmemWords : Nat
  /-- IMEM_WORDS: how many instruction-memory words exist (D3, D20). -/
  imemWords : Nat
  /-- LS_OFFSET_SIGNED: the 4-bit offset of load and store is sign-extended (D7). -/
  lsOffsetSigned : Bool
  /-- BR_OFFSET_SIGNED: the 12-bit offset of brz, brnz and brns is sign-extended (D8). -/
  brOffsetSigned : Bool
  /-- AddOverflow(a, b): the Op specific flag of add (D9). -/
  addOverflow : Word xlen → Word xlen → Bool
  /-- SubUnderflow(a, b): the Op specific flag of sub and cmp (D9). -/
  subUnderflow : Word xlen → Word xlen → Bool
  /-- AddiOpSpecific(a, imm8): the Op specific flag of addi (D10). -/
  addiOpSpecific : Word xlen → BitVec 8 → Bool
  /-- ShiftBig(op, v, amt): the result of a shift by an amount of XLEN or more (D12). -/
  shiftBig : ShiftOp → Word xlen → Nat → Word xlen
  /-- RESERVED_CMP (D14). -/
  reservedCmp : ReservedCmp
  /-- RESET_PC: the program counter after reset (D16). -/
  resetPc : PC pcw
  /-- The content of each data word before anything has written it: "an arbitrary value fixed per location for the run"
  (D23, R44). -/
  initialData : Word xlen → Word xlen

/-- All the parameters of R5, for the claims that quantify over the widths too. -/
structure Parameters where
  /-- XLEN: the width of a general register and of a data-memory word (D2). -/
  xlen : Nat
  /-- PCW: the width of the program counter (D3). -/
  pcw : Nat
  /-- The parameters whose types depend on the widths, and all the others. -/
  config : Config xlen pcw

/-- The constraints that R5 reads off the source for the widths (its column "constraint from the source"), R41's on a
unified memory, and that an instruction takes some pc units. -/
def Parameters.Admissible (P : Parameters) : Prop :=
  8 ≤ P.xlen ∧ 12 ≤ P.pcw ∧ (P.config.memOrg = .unified → P.xlen = 16) ∧ 0 < P.config.unitsPerInstr

/-- FREE VALUE. What a data word holds that neither a store nor the host has written, one value per address (R24, R44,
D23). It has no body: nothing can be proved of it, so no claim rests on a chosen content. Log entry 2. -/
opaque Config.unwrittenWord : Word → Word

end Sys2Proof
end

