-- ==== Sys2Proof/Machine/Flags.lean ====
section
/-! DEFINITION. Every flag computation the spec gives (10_state.md R18, 40_arithmetic.md R80, R82). -/

namespace Sys2Proof.Machine

variable {xlen : Nat}

/-- `Zero(r)`: the Zero flag of a result (R18, R80). -/
def zeroFlag (r : Word xlen) : Bool := r == 0

/-- The default AddOverflow: the carry out of the XLEN-bit unsigned sum (R80, D9). -/
def addCarry (a b : Word xlen) : Bool := decide (2 ^ xlen ≤ a.toNat + b.toNat)

/-- The default SubUnderflow: the borrow of the XLEN-bit subtraction (R80, D9). -/
def subBorrow (a b : Word xlen) : Bool := decide (a.toNat < b.toNat)

/-- The default AddiOpSpecific: the carry out of the sum with the sign-extended immediate (R82, D10). -/
def addiCarry (a : Word xlen) (imm8 : BitVec 8) : Bool := addCarry a (imm8.signExtend xlen)

/-- The default ShiftBig: every bit is shifted out (R120, D12). -/
def shiftBigZero (_op : ShiftOp) (_v : Word xlen) (_amt : Nat) : Word xlen := 0

end Sys2Proof.Machine
end

