-- ==== Sys2Proof/Machine/Params.lean ====
section
/-! DEFINITION. The values of the parameters that this machine takes: the defaults of the table in 00_scope.md R5. -/

namespace Sys2Proof.Machine

/-- The defaults of R5, each by the decision its field names in Config.lean. -/
def params : Config 16 16 where
  bit0IsMsb := true
  unitsPerInstr := 1
  branchBase := 0
  memOrg := .harvard
  dmemWords := 2 ^ 16
  imemWords := 2 ^ 16
  lsOffsetSigned := false
  brOffsetSigned := true
  addOverflow := addCarry
  subUnderflow := subBorrow
  addiOpSpecific := addiCarry
  shiftBig := shiftBigZero
  reservedCmp := .stop
  resetPc := 0
  initialData := Config.unwrittenWord

/-- The defaults of R5 with the widths among them: XLEN = 16 and PCW = 16. -/
def parameters : Parameters where
  xlen := 16
  pcw := 16
  config := params

end Sys2Proof.Machine
end

