-- ==== Sys2Proof/Syntax.lean ====
section
/-! DEFINITION. The instructions: one constructor per row of spec/opcode_table.json, its arguments the row's
fields (30_encoding.md R52, R53), in the order of the document's columns. -/

namespace Sys2Proof

/-- An instruction. Bits that a form ignores (R62) are kept as fields, so that decoding drops no bit; `wellFormed`
says that they are zero, as the assembler of R66 emits them. -/
inductive Instr where
  /-- `add rd, rs1, rs2` (R81). -/
  | add (rd rs1 rs2 : Reg)
  /-- `addi rd, imm8`: RD is source and destination (R82). -/
  | addi (rd : Reg) (imm8 : BitVec 8)
  /-- `sub rd, rs1, rs2` (R83). -/
  | sub (rd rs1 rs2 : Reg)
  /-- `and rd, rs1, rs2` (R84). -/
  | and (rd rs1 rs2 : Reg)
  /-- `or rd, rs1, rs2` (R85). -/
  | or (rd rs1 rs2 : Reg)
  /-- `xor rd, rs1, rs2` (R86). -/
  | xor (rd rs1 rs2 : Reg)
  /-- `loadi rd, imm8` (R100). -/
  | loadi (rd : Reg) (imm8 : BitVec 8)
  /-- `load rd, rs1, off4` (R101). -/
  | load (rd rs1 : Reg) (off4 : BitVec 4)
  /-- `store rs2, rs1, off4`: the data register RS2 stands in columns 4-7 (R102, R52). -/
  | store (rs2 rs1 : Reg) (off4 : BitVec 4)
  /-- `jmp off12` (R111). -/
  | jmp (off12 : BitVec 12)
  /-- `brz off12` (R112). -/
  | brz (off12 : BitVec 12)
  /-- `brnz off12` (R113). -/
  | brnz (off12 : BitVec 12)
  /-- `brns off12` (R114). -/
  | brns (off12 : BitVec 12)
  /-- `shl rd, rs` (Imm? = 0) or `shl rd, imm3` (Imm? = 1) (R121). -/
  | shl (rd rs : Reg) (immflag : Bool) (imm3 : BitVec 3)
  /-- `shr rd, rs` (Imm? = 0) or `shr rd, imm3` (Imm? = 1) (R122). -/
  | shr (rd rs : Reg) (immflag : Bool) (imm3 : BitVec 3)
  /-- `cmp rs1, rs2`, Nop? = 0: RS1 stands in columns 4-7, RS2 in columns 8-B (R123, R52). -/
  | cmp (rs1 rs2 : Reg)
  /-- `nop`: the compare encoding with Nop? = 0b1111; columns 4-B are ignored (R124). -/
  | nop (unused : BitVec 8)
  deriving DecidableEq, Repr

end Sys2Proof
end

