-- ==== Sys2Proof/Decode.lean ====
section
/-! DEFINITION. The decoder and the encoder (30_encoding.md R50 to R63). Every instruction is one 16-bit word; fetch reads
whole words and no byte order exists at this level (20_memory.md R31), so both work on words. -/

namespace Sys2Proof

variable {xlen pcw : Nat}

/-- What a word decodes to: an instruction, or one of the reserved compare words, named with the word (R60, R61). -/
inductive Decoded where
  | instr (i : Instr)
  | reserved (w : InstrWord)
  deriving DecidableEq, Repr

/-- The word with document column k at bit 15 - k, whichever end of the word column 0 is (R51, D1). -/
def documentOrder (cfg : Config xlen pcw) (w : InstrWord) : InstrWord :=
  if cfg.bit0IsMsb then w else w.reverse

/-- The value of a field given by its document columns, leftmost at the top: that column is the field's most significant
bit exactly under BIT0_IS_MSB (R51, D1). The other reading is DEDUCED, log entry 7. -/
def fieldValue (cfg : Config xlen pcw) {n : Nat} (f : BitVec n) : BitVec n :=
  if cfg.bit0IsMsb then f else f.reverse

/-- Decoding (R60) by the fields of R52 and the opcode map of R59. It is total: a word that is no instruction is a
reserved compare word (R61, R63). -/
def decodeWith (cfg : Config xlen pcw) (w : InstrWord) : Decoded :=
  let d := documentOrder cfg w
  let cols4to7 : BitVec 4 := fieldValue cfg (d.extractLsb' 8 4)
  let cols8toB : BitVec 4 := fieldValue cfg (d.extractLsb' 4 4)
  let colsCtoF : BitVec 4 := fieldValue cfg (d.extractLsb' 0 4)
  let cols8toF : BitVec 8 := fieldValue cfg (d.extractLsb' 0 8)
  let cols4toB : BitVec 8 := fieldValue cfg (d.extractLsb' 4 8)
  let cols4toF : BitVec 12 := fieldValue cfg (d.extractLsb' 0 12)
  let colC : Bool := d.getLsbD 3
  let colsDtoF : BitVec 3 := fieldValue cfg (d.extractLsb' 0 3)
  match d.extractLsb' 12 4 with
  | 0b0000#4 => .instr (.add cols4to7 cols8toB colsCtoF)
  | 0b0001#4 => .instr (.addi cols4to7 cols8toF)
  | 0b0010#4 => .instr (.sub cols4to7 cols8toB colsCtoF)
  | 0b0011#4 => .instr (.and cols4to7 cols8toB colsCtoF)
  | 0b0100#4 => .instr (.or cols4to7 cols8toB colsCtoF)
  | 0b0101#4 => .instr (.xor cols4to7 cols8toB colsCtoF)
  | 0b0110#4 => .instr (.loadi cols4to7 cols8toF)
  | 0b0111#4 => .instr (.load cols4to7 cols8toB colsCtoF)
  | 0b1000#4 => .instr (.store cols4to7 cols8toB colsCtoF)
  | 0b1001#4 => .instr (.jmp cols4toF)
  | 0b1010#4 => .instr (.brz cols4toF)
  | 0b1011#4 => .instr (.brnz cols4toF)
  | 0b1100#4 => .instr (.brns cols4toF)
  | 0b1101#4 => .instr (.shl cols4to7 cols8toB colC colsDtoF)
  | 0b1110#4 => .instr (.shr cols4to7 cols8toB colC colsDtoF)
  | _ =>
    match colsCtoF with
    | 0b0000#4 => .instr (.cmp cols4to7 cols8toB)
    | 0b1111#4 => .instr (.nop cols4toB)
    | _ => .reserved w

/-- The register fields of a compare word, columns 4-7 and 8-B (R52), whatever its Nop? says. -/
def compareFields (cfg : Config xlen pcw) (w : InstrWord) : Reg × Reg :=
  let d := documentOrder cfg w
  (fieldValue cfg (d.extractLsb' 8 4), fieldValue cfg (d.extractLsb' 4 4))

/-- The decoder of this machine. -/
def decode (w : InstrWord) : Decoded := decodeWith Machine.params w

/-- Formats R3, M and C (R53): opcode and three fields of four columns. -/
def layoutNibbles (op f1 f2 f3 : BitVec 4) : InstrWord := op ++ f1 ++ f2 ++ f3

/-- Format I8 (R53): opcode, RD, the 8-bit immediate. -/
def layoutImm8 (op f1 : BitVec 4) (imm8 : BitVec 8) : InstrWord := op ++ f1 ++ imm8

/-- Format J (R53): opcode and the 12-bit offset. -/
def layoutOff12 (op : BitVec 4) (off12 : BitVec 12) : InstrWord := op ++ off12

/-- Format SH (R53): opcode, RD, RS, Imm? and Imm. -/
def layoutShift (op f1 f2 : BitVec 4) (immflag : Bool) (imm3 : BitVec 3) : InstrWord :=
  op ++ f1 ++ f2 ++ BitVec.ofBool immflag ++ imm3

/-- Format C with Nop? = 0b1111 (R59): the two register fields are ignored and kept as one. -/
def layoutNop (op : BitVec 4) (unused : BitVec 8) (nopf : BitVec 4) : InstrWord := op ++ unused ++ nopf

/-- The instruction in document order: opcode and fields as the patterns of R59 lay them out, column 0 leftmost. -/
def encodeColumns (cfg : Config xlen pcw) : Instr → InstrWord
  | .add rd rs1 rs2 => layoutNibbles 0b0000#4 (fieldValue cfg rd) (fieldValue cfg rs1) (fieldValue cfg rs2)
  | .addi rd imm8 => layoutImm8 0b0001#4 (fieldValue cfg rd) (fieldValue cfg imm8)
  | .sub rd rs1 rs2 => layoutNibbles 0b0010#4 (fieldValue cfg rd) (fieldValue cfg rs1) (fieldValue cfg rs2)
  | .and rd rs1 rs2 => layoutNibbles 0b0011#4 (fieldValue cfg rd) (fieldValue cfg rs1) (fieldValue cfg rs2)
  | .or rd rs1 rs2 => layoutNibbles 0b0100#4 (fieldValue cfg rd) (fieldValue cfg rs1) (fieldValue cfg rs2)
  | .xor rd rs1 rs2 => layoutNibbles 0b0101#4 (fieldValue cfg rd) (fieldValue cfg rs1) (fieldValue cfg rs2)
  | .loadi rd imm8 => layoutImm8 0b0110#4 (fieldValue cfg rd) (fieldValue cfg imm8)
  | .load rd rs1 off4 => layoutNibbles 0b0111#4 (fieldValue cfg rd) (fieldValue cfg rs1) (fieldValue cfg off4)
  | .store rs2 rs1 off4 => layoutNibbles 0b1000#4 (fieldValue cfg rs2) (fieldValue cfg rs1) (fieldValue cfg off4)
  | .jmp off12 => layoutOff12 0b1001#4 (fieldValue cfg off12)
  | .brz off12 => layoutOff12 0b1010#4 (fieldValue cfg off12)
  | .brnz off12 => layoutOff12 0b1011#4 (fieldValue cfg off12)
  | .brns off12 => layoutOff12 0b1100#4 (fieldValue cfg off12)
  | .shl rd rs immflag imm3 =>
    layoutShift 0b1101#4 (fieldValue cfg rd) (fieldValue cfg rs) immflag (fieldValue cfg imm3)
  | .shr rd rs immflag imm3 =>
    layoutShift 0b1110#4 (fieldValue cfg rd) (fieldValue cfg rs) immflag (fieldValue cfg imm3)
  | .cmp rs1 rs2 => layoutNibbles 0b1111#4 (fieldValue cfg rs1) (fieldValue cfg rs2) 0b0000#4
  | .nop unused => layoutNop 0b1111#4 (fieldValue cfg unused) 0b1111#4

/-- Encoding: the inverse of `decodeWith` on the words that are instructions. -/
def encodeWith (cfg : Config xlen pcw) (i : Instr) : InstrWord := documentOrder cfg (encodeColumns cfg i)

/-- The encoder of this machine. -/
def encode (i : Instr) : InstrWord := encodeWith Machine.params i

/-- What the decoder reads from an instruction given as the opcode table numbers its bits; every row has one word of 16
bits (R50). None for a reserved word. -/
def decodeTableWord (nbits w : Nat) : Option Instr :=
  match decode (BitVec.ofNat 16 (w % 2 ^ nbits)) with
  | .instr i => some i
  | .reserved _ => none

end Sys2Proof
end

