-- ==== Sys2Proof/Machine/State.lean ====
section
/-! DEFINITION. The state of the machine (the table at the head of 10_state.md is the whole of it), its stops, and the
state after reset. -/

namespace Sys2Proof.Machine

/-- A memory as plain data: the words that something has placed or written, as (address, word) pairs, addresses strictly
rising. The unit is the whole word, the only unit the spec's memories have: no byte can be addressed (R21, R22, R30,
R31). An address that is not listed has no value here; log entries 2, 3 and 4 say what reading it does. -/
abbrev Memory (width : Nat := 16) := List (Nat × BitVec width)

/-- The architectural state (10_state.md, first table) of a machine with words of XLEN bits and a pc of PCW bits. -/
structure State.Of (xlen pcw : Nat) where
  /-- `x[0]` .. `x[15]` (R10, R11, R12). -/
  regs : Vector (Word xlen) 16
  /-- The address of the executing instruction (R13). -/
  pc : PC pcw
  /-- Z, the Zero flag (R16). -/
  zFlag : Bool
  /-- S, the Op specific flag (R16). -/
  sFlag : Bool
  /-- IMEM, the words the program image defines (R21). -/
  imem : Memory 16
  /-- DMEM, the words that something has written (R22). -/
  dmem : Memory xlen
  deriving DecidableEq, Repr

/-- The state of this machine: XLEN = 16 and PCW = 16 (R5, R11, R13). -/
abbrev State := State.Of 16 16

/-- Why the machine stops. None of these is an event of the hardware: it has no exceptions (R130, R131). -/
inductive Fault where
  /-- Raised by the step on a compare word with Nop? in 1 .. 14, to which the spec gives no meaning (R8, R61, R125); it
  records the word and its pc (R131). Safe: the model stops where the chip does one unknown thing. -/
  | reservedEncoding (instr : InstrWord) (pc : Nat)
  /-- Raised by the step where the fetched word is not defined by the program image (R8, R21). Safe: the chip executes
  whatever bits the word holds (R131). -/
  | fetchUnloaded (pc : Nat)
  /-- Raised by load and store at an address that does not exist, which needs a DMEM_WORDS below its default (R35, U16:
  stuck); never raised under the default parameters. Safe. -/
  | absentDataWord (addr : Nat)
  deriving DecidableEq, Repr

/-- Why the machine gives an instruction no meaning. -/
inductive Refusal where
  /-- Reserved for an arm of `exec` whose instruction has no meaning yet; no arm is left so. Safe. -/
  | notModelled (mnemonic : String)
  deriving DecidableEq, Repr

/-- What a step or an instruction answers. -/
abbrev Result (xlen : Nat := 16) (pcw : Nat := 16) := Host.Outcome (State.Of xlen pcw) Fault Refusal

/-- The state right after reset under any parameters: pc = RESET_PC, no memory word written or loaded, and the model's own
zeros (log entry 1). -/
def State.resetWith {xlen pcw : Nat} (cfg : Config xlen pcw) : State.Of xlen pcw where
  regs := Vector.replicate 16 0
  pc := cfg.resetPc
  zFlag := false
  sFlag := false
  imem := []
  dmem := []

/-- The state right after reset (R24, R150): pc = RESET_PC (the spec's decision D16) and no memory word written or loaded.
DESIGN CHOICE, unsafe (log entry 1): the spec gives the registers and flags no reset value and says not to assume zero;
the model names zero. Claims about the machine after reset quantify over `AfterReset` of Safety.lean instead. -/
def State.reset : State := State.resetWith params

end Sys2Proof.Machine
end

