-- ==== Sys2Proof/Machine/Ops.lean ====
section
/-! DEFINITION. The named operations over memory and registers. There is no operation that takes an exception or returns
from one: the spec gives the machine none (60_exceptions.md R130, R132, R134, R135). -/

namespace Sys2Proof.Machine

variable {xlen pcw : Nat}

/-! ### Memory -/

/-- The word listed at an address, if there is one. -/
def Memory.lookup {width : Nat} : Memory width → Nat → Option (BitVec width)
  | [], _ => none
  | (b, v) :: rest, a => if a = b then some v else Memory.lookup rest a

/-- The memory with a word written at an address, addresses still strictly rising. -/
def Memory.insert {width : Nat} : Memory width → Nat → BitVec width → Memory width
  | [], a, v => [(a, v)]
  | (b, w) :: rest, a, v =>
    if a < b then (a, v) :: (b, w) :: rest
    else if a = b then (a, v) :: rest
    else (b, w) :: Memory.insert rest a v

/-- The canonical form of a memory with addresses of some bits: addresses strictly rising, none out of their range. No
entry is redundant, since an address that is not listed has no value. -/
abbrev Memory.wf {width : Nat} (m : Memory width) (addrBits : Nat) : Prop :=
  m.Pairwise (fun x y => x.1 < y.1) ∧ ∀ x ∈ m, x.1 < 2 ^ addrBits

/-! ### Registers and flags -/

/-- A register number names one of the 16 registers (R10). -/
theorem regIndex_lt (r : Reg) : r.toNat < 16 := r.isLt

/-- `x[i]` (00_scope.md 5.3). No register is special (R12). -/
def readReg (s : State.Of xlen pcw) (r : Reg) : Word xlen := s.regs[r.toNat]'(regIndex_lt r)

/-- `x[i] <- v` (00_scope.md 5.3). -/
def writeReg (s : State.Of xlen pcw) (r : Reg) (v : Word xlen) : State.Of xlen pcw :=
  { s with regs := s.regs.set r.toNat v (regIndex_lt r) }

/-- `Z <- Zero(r)` for the result r (R18). -/
def setZero (s : State.Of xlen pcw) (r : Word xlen) : State.Of xlen pcw := { s with zFlag := zeroFlag r }

/-- `S <- b` (R16). -/
def setSpecific (s : State.Of xlen pcw) (b : Bool) : State.Of xlen pcw := { s with sFlag := b }

/-- The implicit `pc <- pc + 1`, one instruction on in the units of PC_UNIT, modulo 2^PCW (R14, R15). -/
def advance (cfg : Config xlen pcw) (s : State.Of xlen pcw) : State.Of xlen pcw :=
  { s with pc := s.pc + BitVec.ofNat pcw cfg.unitsPerInstr }

/-- `pc <- target` (00_scope.md 5.3). -/
def jumpTo (s : State.Of xlen pcw) (target : PC pcw) : State.Of xlen pcw := { s with pc := target }

/-! ### Data memory -/

/-- DMEM[a]: the word last written there, or the initial content (R30, R38, R44). -/
def dataWord (cfg : Config xlen pcw) (s : State.Of xlen pcw) (a : Word xlen) : Word xlen :=
  (s.dmem.lookup a.toNat).getD (cfg.initialData a)

/-- `MemRead(addr, 1)`; none where the word does not exist (R33, R35). -/
def readData (cfg : Config xlen pcw) (s : State.Of xlen pcw) (a : Word xlen) : Option (Word xlen) :=
  if a.toNat < cfg.dmemWords then some (dataWord cfg s a) else none

/-- All the bits of one data word replaced (R30), by a store or, before a run, by the host (R155). -/
def placeData (s : State.Of xlen pcw) (a v : Word xlen) : State.Of xlen pcw :=
  { s with dmem := s.dmem.insert a.toNat v }

/-- `MemWrite(addr, 1, v)`; none where the word does not exist (R33, R35). -/
def writeData (cfg : Config xlen pcw) (s : State.Of xlen pcw) (a v : Word xlen) : Option (State.Of xlen pcw) :=
  if a.toNat < cfg.dmemWords then some (placeData s a v) else none

/-! ### Instruction memory -/

/-- The n-th word of the memory that fetch reads: IMEM, or under MEM_ORG = unified the one memory, where a data word is an
instruction only if XLEN = 16 (R40, R41). -/
def programWord (cfg : Config xlen pcw) (s : State.Of xlen pcw) (n : Nat) : Option InstrWord :=
  match cfg.memOrg with
  | .harvard => s.imem.lookup n
  | .unified => if xlen = 16 then (s.dmem.lookup n).map (·.setWidth 16) else none

/-- `IMEM[a]`; none where the program image defines no word (R14, R21, R37), or where a pc that counts parts of an
instruction stands inside one (log entry 14). DESIGN CHOICE, log entry 17: under MEM_ORG = unified IMEM_WORDS alone bounds
fetch, as DMEM_WORDS alone bounds load and store. -/
def instrAt (cfg : Config xlen pcw) (s : State.Of xlen pcw) (a : PC pcw) : Option InstrWord :=
  if a.toNat % cfg.unitsPerInstr = 0 ∧ a.toNat / cfg.unitsPerInstr < cfg.imemWords then
    programWord cfg s (a.toNat / cfg.unitsPerInstr)
  else none

/-! ### The host, before a run (70_reset_and_hazards.md R155) -/

/-- One word of the program image placed in instruction memory, at the word of that number: on this machine, at that pc. -/
def placeInstr (s : State.Of xlen pcw) (a : PC pcw) (w : InstrWord) : State.Of xlen pcw :=
  { s with imem := s.imem.insert a.toNat w }

/-- The words of an image placed from an address on. -/
def loadImageFrom : List InstrWord → PC pcw → State.Of xlen pcw → State.Of xlen pcw
  | [], _, s => s
  | w :: rest, a, s => loadImageFrom rest (a + 1) (placeInstr s a w)

/-- A program image in the instruction memory of this machine, its first instruction at RESET_PC (R151 (a)). -/
def loadImage (image : List InstrWord) (s : State) : State :=
  loadImageFrom image params.resetPc s

end Sys2Proof.Machine
end

