-- ==== Sys2Proof/Machine/Operands.lean ====
section
/-! DEFINITION. Every operand form the spec gives: immediates (30_encoding.md R54 to R57), the one addressing mode
(20_memory.md R36), the shift amount (43_shift_compare.md R120), the jump target (42_control_flow.md R110). -/

namespace Sys2Proof.Machine

variable {xlen pcw : Nat}

/-- `sext_XLEN(imm8)`, the operand of addi and loadi (R54). -/
def immOperand (imm8 : BitVec 8) : Word xlen := imm8.signExtend xlen

/-- The 4-bit offset of load and store: zero-extended, unless LS_OFFSET_SIGNED (R55, D7). -/
def memOffset (cfg : Config xlen pcw) (off4 : BitVec 4) : Word xlen :=
  if cfg.lsOffsetSigned then off4.signExtend xlen else off4.setWidth xlen

/-- The effective address, modulo 2^XLEN (R36). -/
def effectiveAddress (cfg : Config xlen pcw) (s : State.Of xlen pcw) (base : Reg) (off4 : BitVec 4) : Word xlen :=
  readReg s base + memOffset cfg off4

/-- `sext_PCW(off12)`, the offset of jmp (R56). -/
def jumpOffset (off12 : BitVec 12) : PC pcw := off12.signExtend pcw

/-- The offset of brz, brnz and brns: as that of jmp, unless BR_OFFSET_SIGNED is false (R56, D8). -/
def branchOffset (cfg : Config xlen pcw) (off12 : BitVec 12) : PC pcw :=
  if cfg.brOffsetSigned then off12.signExtend pcw else off12.setWidth pcw

/-- The target of a jump or taken branch from the address of that instruction, modulo 2^PCW (R110). -/
def target (cfg : Config xlen pcw) (pc offset : PC pcw) : PC pcw := pc + cfg.branchBase + offset

/-- The shift amount: imm3, or the whole of x[rs], as an unsigned number (R57, R120). -/
def shiftAmount (s : State.Of xlen pcw) (rs : Reg) (immflag : Bool) (imm3 : BitVec 3) : Nat :=
  if immflag then imm3.toNat else (readReg s rs).toNat

/-- The result of shl (R121). -/
def shiftLeft (cfg : Config xlen pcw) (v : Word xlen) (amt : Nat) : Word xlen :=
  if amt < xlen then v <<< amt else cfg.shiftBig .shl v amt

/-- The result of shr, a logical shift (R122). -/
def shiftRight (cfg : Config xlen pcw) (v : Word xlen) (amt : Nat) : Word xlen :=
  if amt < xlen then v >>> amt else cfg.shiftBig .shr v amt

end Sys2Proof.Machine
end

