-- ==== Sys2Proof/Machine/Arithmetic.lean ====
section
/-! DEFINITION. Arithmetic operations (40_arithmetic.md): add, addi, sub, and, or, xor. Each has its meaning under any
parameters (`…With`) and, as `exec` calls it, under those of this machine. -/

namespace Sys2Proof.Machine

variable {xlen pcw : Nat} (cfg : Config xlen pcw)

/-- How every instruction of this family and the shifts end: the result goes to rd, Z follows it, pc advances. -/
def finishResult (s : State.Of xlen pcw) (rd : Reg) (r : Word xlen) : State.Of xlen pcw :=
  advance cfg (setZero (writeReg s rd r) r)

/-- `add rd, rs1, rs2` (R81). -/
def addWith (rd rs1 rs2 : Reg) (s : State.Of xlen pcw) : Result xlen pcw :=
  let a := readReg s rs1
  let b := readReg s rs2
  .next (finishResult cfg (setSpecific s (cfg.addOverflow a b)) rd (a + b))

/-- `addi rd, imm8` (R82). -/
def addiWith (rd : Reg) (imm8 : BitVec 8) (s : State.Of xlen pcw) : Result xlen pcw :=
  let a := readReg s rd
  .next (finishResult cfg (setSpecific s (cfg.addiOpSpecific a imm8)) rd (a + immOperand imm8))

/-- `sub rd, rs1, rs2` (R83). -/
def subWith (rd rs1 rs2 : Reg) (s : State.Of xlen pcw) : Result xlen pcw :=
  let a := readReg s rs1
  let b := readReg s rs2
  .next (finishResult cfg (setSpecific s (cfg.subUnderflow a b)) rd (a - b))

/-- `and rd, rs1, rs2` (R84): S keeps its value. -/
def andWith (rd rs1 rs2 : Reg) (s : State.Of xlen pcw) : Result xlen pcw :=
  .next (finishResult cfg s rd (readReg s rs1 &&& readReg s rs2))

/-- `or rd, rs1, rs2` (R85): S keeps its value. -/
def orWith (rd rs1 rs2 : Reg) (s : State.Of xlen pcw) : Result xlen pcw :=
  .next (finishResult cfg s rd (readReg s rs1 ||| readReg s rs2))

/-- `xor rd, rs1, rs2` (R86): S keeps its value. -/
def xorWith (rd rs1 rs2 : Reg) (s : State.Of xlen pcw) : Result xlen pcw :=
  .next (finishResult cfg s rd (readReg s rs1 ^^^ readReg s rs2))

/-- ADD (R81). -/
def execAdd (rd rs1 rs2 : Reg) (s : State) : Result := addWith params rd rs1 rs2 s

/-- ADDI (R82). -/
def execAddi (rd : Reg) (imm8 : BitVec 8) (s : State) : Result := addiWith params rd imm8 s

/-- SUB (R83). -/
def execSub (rd rs1 rs2 : Reg) (s : State) : Result := subWith params rd rs1 rs2 s

/-- AND (R84). -/
def execAnd (rd rs1 rs2 : Reg) (s : State) : Result := andWith params rd rs1 rs2 s

/-- OR (R85). -/
def execOr (rd rs1 rs2 : Reg) (s : State) : Result := orWith params rd rs1 rs2 s

/-- XOR (R86). -/
def execXor (rd rs1 rs2 : Reg) (s : State) : Result := xorWith params rd rs1 rs2 s

end Sys2Proof.Machine
end

