-- ==== Sys2Proof/Machine/ControlFlow.lean ====
section
/-! DEFINITION. Control flow operations (42_control_flow.md): jmp, brz, brnz, brns. None writes a register or a flag or
touches memory; there is no delay slot (R116). -/

namespace Sys2Proof.Machine

variable {xlen pcw : Nat} (cfg : Config xlen pcw)

/-- `jmp off12` (R111). -/
def jmpWith (off12 : BitVec 12) (s : State.Of xlen pcw) : Result xlen pcw :=
  .next (jumpTo s (target cfg s.pc (jumpOffset off12)))

/-- A conditional branch: to its target when taken, to pc + 1 otherwise (R110). -/
def branchWith (taken : Bool) (off12 : BitVec 12) (s : State.Of xlen pcw) : Result xlen pcw :=
  if taken then .next (jumpTo s (target cfg s.pc (branchOffset cfg off12))) else .next (advance cfg s)

/-- `brz off12`: taken when Z = 1 (R112). -/
def brzWith (off12 : BitVec 12) (s : State.Of xlen pcw) : Result xlen pcw := branchWith cfg s.zFlag off12 s

/-- `brnz off12`: taken when Z = 0 (R113). -/
def brnzWith (off12 : BitVec 12) (s : State.Of xlen pcw) : Result xlen pcw := branchWith cfg (!s.zFlag) off12 s

/-- `brns off12`: taken when S = 0 (R114). -/
def brnsWith (off12 : BitVec 12) (s : State.Of xlen pcw) : Result xlen pcw := branchWith cfg (!s.sFlag) off12 s

/-- JMP (R111). -/
def execJmp (off12 : BitVec 12) (s : State) : Result := jmpWith params off12 s

/-- BRZ (R112). -/
def execBrz (off12 : BitVec 12) (s : State) : Result := brzWith params off12 s

/-- BRNZ (R113). -/
def execBrnz (off12 : BitVec 12) (s : State) : Result := brnzWith params off12 s

/-- BRNS (R114). -/
def execBrns (off12 : BitVec 12) (s : State) : Result := brnsWith params off12 s

end Sys2Proof.Machine
end

