-- ==== Sys2Proof/Machine/MemoryOps.lean ====
section
/-! DEFINITION. Memory operations (41_memory_ops.md): loadi, load, store. None writes a flag. -/

namespace Sys2Proof.Machine

variable {xlen pcw : Nat} (cfg : Config xlen pcw)

/-- `loadi rd, imm8` (R100). -/
def loadiWith (rd : Reg) (imm8 : BitVec 8) (s : State.Of xlen pcw) : Result xlen pcw :=
  .next (advance cfg (writeReg s rd (immOperand imm8)))

/-- `load rd, rs1, off4` (R101); no step at a word that does not exist (R35). -/
def loadWith (rd rs1 : Reg) (off4 : BitVec 4) (s : State.Of xlen pcw) : Result xlen pcw :=
  let addr := effectiveAddress cfg s rs1 off4
  match readData cfg s addr with
  | some v => .next (advance cfg (writeReg s rd v))
  | none => .fault (.absentDataWord addr.toNat)

/-- `store rs2, rs1, off4` (R102); no step at a word that does not exist (R35). -/
def storeWith (rs2 rs1 : Reg) (off4 : BitVec 4) (s : State.Of xlen pcw) : Result xlen pcw :=
  let addr := effectiveAddress cfg s rs1 off4
  match writeData cfg s addr (readReg s rs2) with
  | some t => .next (advance cfg t)
  | none => .fault (.absentDataWord addr.toNat)

/-- LOADI (R100). -/
def execLoadi (rd : Reg) (imm8 : BitVec 8) (s : State) : Result := loadiWith params rd imm8 s

/-- LOAD (R101). -/
def execLoad (rd rs1 : Reg) (off4 : BitVec 4) (s : State) : Result := loadWith params rd rs1 off4 s

/-- STORE (R102). -/
def execStore (rs2 rs1 : Reg) (off4 : BitVec 4) (s : State) : Result := storeWith params rs2 rs1 off4 s

end Sys2Proof.Machine
end

