-- ==== Sys2Proof/Machine/ShiftCompare.lean ====
section
/-! DEFINITION. Shift and compare operations (43_shift_compare.md): shl, shr, cmp, nop. -/

namespace Sys2Proof.Machine

variable {xlen pcw : Nat} (cfg : Config xlen pcw)

/-- `shl rd, rs` and `shl rd, imm3` (R121): S keeps its value. -/
def shlWith (rd rs : Reg) (immflag : Bool) (imm3 : BitVec 3) (s : State.Of xlen pcw) : Result xlen pcw :=
  .next (finishResult cfg s rd (shiftLeft cfg (readReg s rd) (shiftAmount s rs immflag imm3)))

/-- `shr rd, rs` and `shr rd, imm3` (R122): S keeps its value. -/
def shrWith (rd rs : Reg) (immflag : Bool) (imm3 : BitVec 3) (s : State.Of xlen pcw) : Result xlen pcw :=
  .next (finishResult cfg s rd (shiftRight cfg (readReg s rd) (shiftAmount s rs immflag imm3)))

/-- `cmp rs1, rs2` (R123): the flags as sub writes them, no register. -/
def cmpWith (rs1 rs2 : Reg) (s : State.Of xlen pcw) : Result xlen pcw :=
  let a := readReg s rs1
  let b := readReg s rs2
  .next (advance cfg (setZero (setSpecific s (cfg.subUnderflow a b)) (a - b)))

/-- `nop` (R124): nothing but the advance of pc; the ignored bits play no part (R62). -/
def nopWith (_unused : BitVec 8) (s : State.Of xlen pcw) : Result xlen pcw := .next (advance cfg s)

/-- SHL (R121). -/
def execShl (rd rs : Reg) (immflag : Bool) (imm3 : BitVec 3) (s : State) : Result :=
  shlWith params rd rs immflag imm3 s

/-- SHR (R122). -/
def execShr (rd rs : Reg) (immflag : Bool) (imm3 : BitVec 3) (s : State) : Result :=
  shrWith params rd rs immflag imm3 s

/-- CMP (R123). -/
def execCmp (rs1 rs2 : Reg) (s : State) : Result := cmpWith params rs1 rs2 s

/-- NOP (R124). -/
def execNop (unused : BitVec 8) (s : State) : Result := nopWith params unused s

end Sys2Proof.Machine
end

