-- ==== Sys2Proof/Machine/Dispatch.lean ====
section
/-! DEFINITION. One arm per instruction, in the order of spec/opcode_table.json. -/

namespace Sys2Proof.Machine

def exec (i : Instr) (s : State) : Host.Outcome State Fault Refusal :=
  match i with
  | .add rd rs1 rs2 => Sys2Proof.Machine.execAdd rd rs1 rs2 s
  | .addi rd imm8 => Sys2Proof.Machine.execAddi rd imm8 s
  | .sub rd rs1 rs2 => Sys2Proof.Machine.execSub rd rs1 rs2 s
  | .and rd rs1 rs2 => Sys2Proof.Machine.execAnd rd rs1 rs2 s
  | .or rd rs1 rs2 => Sys2Proof.Machine.execOr rd rs1 rs2 s
  | .xor rd rs1 rs2 => Sys2Proof.Machine.execXor rd rs1 rs2 s
  | .loadi rd imm8 => Sys2Proof.Machine.execLoadi rd imm8 s
  | .load rd rs1 off4 => Sys2Proof.Machine.execLoad rd rs1 off4 s
  | .store rs2 rs1 off4 => Sys2Proof.Machine.execStore rs2 rs1 off4 s
  | .jmp off12 => Sys2Proof.Machine.execJmp off12 s
  | .brz off12 => Sys2Proof.Machine.execBrz off12 s
  | .brnz off12 => Sys2Proof.Machine.execBrnz off12 s
  | .brns off12 => Sys2Proof.Machine.execBrns off12 s
  | .shl rd rs immflag imm3 => Sys2Proof.Machine.execShl rd rs immflag imm3 s
  | .shr rd rs immflag imm3 => Sys2Proof.Machine.execShr rd rs immflag imm3 s
  | .cmp rs1 rs2 => Sys2Proof.Machine.execCmp rs1 rs2 s
  | .nop unused => Sys2Proof.Machine.execNop unused s

end Sys2Proof.Machine
end

