-- ==== Sys2Proof/Machine/Step.lean ====
section
/-! DEFINITION. One step of the machine (10_state.md R14), and the placing of an instruction where it fetches next. -/

namespace Sys2Proof.Machine

/-- Fetch, decode, execute (R14), the model's stops in the order of R131: a fetch that reads no word, a reserved word. -/
def step (s : State) : Host.Outcome State Fault Refusal :=
  match instrAt params s s.pc with
  | none => .fault (.fetchUnloaded s.pc.toNat)
  | some w =>
    match decode w with
    | .reserved w' => .fault (.reservedEncoding w' s.pc.toNat)
    | .instr i => exec i s

/-- The state with an instruction, its bits numbered as the opcode table numbers them, placed in instruction memory at the
program counter. It stands for the host that places the program image (R155); log entry 5. -/
def State.withFetchWord (s : State) (nbits w : Nat) : State :=
  placeInstr s s.pc (BitVec.ofNat 16 (w % 2 ^ nbits))

end Sys2Proof.Machine
end

