-- ==== Sys2Proof/Machine/Parametric.lean ====
section
/-! DEFINITION. The machine under any parameters of 00_scope.md R5, its widths among them, for the claims that quantify over
them. Under `params` it is `exec` and `step` (Laws/Parametric.lean). -/

namespace Sys2Proof.Machine

variable {xlen pcw : Nat} (cfg : Config xlen pcw)

/-- `exec` under any parameters. -/
def execWith : Instr → State.Of xlen pcw → Result xlen pcw
  | .add rd rs1 rs2 => addWith cfg rd rs1 rs2
  | .addi rd imm8 => addiWith cfg rd imm8
  | .sub rd rs1 rs2 => subWith cfg rd rs1 rs2
  | .and rd rs1 rs2 => andWith cfg rd rs1 rs2
  | .or rd rs1 rs2 => orWith cfg rd rs1 rs2
  | .xor rd rs1 rs2 => xorWith cfg rd rs1 rs2
  | .loadi rd imm8 => loadiWith cfg rd imm8
  | .load rd rs1 off4 => loadWith cfg rd rs1 off4
  | .store rs2 rs1 off4 => storeWith cfg rs2 rs1 off4
  | .jmp off12 => jmpWith cfg off12
  | .brz off12 => brzWith cfg off12
  | .brnz off12 => brnzWith cfg off12
  | .brns off12 => brnsWith cfg off12
  | .shl rd rs immflag imm3 => shlWith cfg rd rs immflag imm3
  | .shr rd rs immflag imm3 => shrWith cfg rd rs immflag imm3
  | .cmp rs1 rs2 => cmpWith cfg rs1 rs2
  | .nop unused => nopWith cfg unused

/-- A reserved compare word (R125): the stop, or what one of the two decoders of D14 makes of it (RESERVED_CMP). -/
def reservedWith (w : InstrWord) (s : State.Of xlen pcw) : Result xlen pcw :=
  match cfg.reservedCmp with
  | .stop => .fault (.reservedEncoding w s.pc.toNat)
  | .compare => cmpWith cfg (compareFields cfg w).1 (compareFields cfg w).2 s
  | .nothing => nopWith cfg 0 s

/-- `step` under any parameters. -/
def stepWith (s : State.Of xlen pcw) : Result xlen pcw :=
  match instrAt cfg s s.pc with
  | none => .fault (.fetchUnloaded s.pc.toNat)
  | some w =>
    match decodeWith cfg w with
    | .reserved w' => reservedWith cfg w' s
    | .instr i => execWith cfg i s

end Sys2Proof.Machine
end

