-- ==== Sys2Proof/Safety.lean ====
section
/-! DEFINITION. The terms in which claims are made: what "unchanged" means, the states the spec permits after reset, the
end of a run (70_reset_and_hazards.md R154), and the recommended treatment of unspecified state (10_state.md R24, D23). -/

namespace Sys2Proof.Safety

open Sys2Proof.Machine

/-! ### What stays unchanged -/

/-- Every general register but those listed reads as before. -/
def RegsUnchangedBut (rds : List Reg) (s t : State) : Prop := ∀ r, r ∉ rds → readReg t r = readReg s r

/-- Both flags are as before. -/
def FlagsUnchanged (s t : State) : Prop := t.zFlag = s.zFlag ∧ t.sFlag = s.sFlag

/-- Every data word but those listed reads as before. -/
def DataUnchangedBut (addrs : List Word) (s t : State) : Prop :=
  ∀ a, a ∉ addrs → dataWord params t a = dataWord params s a

/-- Every word of instruction memory is as before, those that the image does not define among them. -/
def ProgramUnchanged (s t : State) : Prop := ∀ a, instrAt params t a = instrAt params s a

/-! ### After reset -/

/-- A state the spec permits right after reset (R24, R150): pc = RESET_PC; no data word has been written; the registers,
the flags and the program image are anything. -/
def AfterReset (s : State) : Prop := s.pc = params.resetPc ∧ s.dmem = []

/-! ### The end of a run -/

/-- The step maps the state to itself (R154). -/
def Quiescent (s : State) : Prop := step s = .next s

/-- The two memories are in canonical form (the model's own choice, log entry 3). -/
def MemoriesCanonical (s : State) : Prop := s.imem.wf 16 ∧ s.dmem.wf 16

/-! ### The recommended treatment of unspecified state: the stop UnspecifiedRead (R8, R24, R131, D23) -/

/-- A place that holds a value reset does not specify (R24). -/
inductive Location where
  | reg (r : Reg)
  | zFlag
  | sFlag
  | data (addr : Word)
  deriving DecidableEq, Repr

/-- A flag as a number: 1 for true, 0 for false (00_scope.md 5.1). -/
def flagValue : Bool → Word
  | true => 1
  | false => 0

/-- What a place holds. -/
def valueAt (s : State) : Location → Word
  | .reg r => readReg s r
  | .zFlag => flagValue s.zFlag
  | .sFlag => flagValue s.sFlag
  | .data a => dataWord params s a

/-- The places an instruction reads, in the order of its pseudocode (the table under R12, R19, R101, R102). -/
def reads (i : Instr) (s : State) : List Location :=
  match i with
  | .add _ rs1 rs2 => [.reg rs1, .reg rs2]
  | .addi rd _ => [.reg rd]
  | .sub _ rs1 rs2 => [.reg rs1, .reg rs2]
  | .and _ rs1 rs2 => [.reg rs1, .reg rs2]
  | .or _ rs1 rs2 => [.reg rs1, .reg rs2]
  | .xor _ rs1 rs2 => [.reg rs1, .reg rs2]
  | .loadi _ _ => []
  | .load _ rs1 off4 => [.reg rs1, .data (effectiveAddress params s rs1 off4)]
  | .store rs2 rs1 _ => [.reg rs1, .reg rs2]
  | .jmp _ => []
  | .brz _ => [.zFlag]
  | .brnz _ => [.zFlag]
  | .brns _ => [.sFlag]
  | .shl rd rs immflag _ => if immflag then [.reg rd] else [.reg rd, .reg rs]
  | .shr rd rs immflag _ => if immflag then [.reg rd] else [.reg rd, .reg rs]
  | .cmp rs1 rs2 => [.reg rs1, .reg rs2]
  | .nop _ => []

/-- The places an instruction writes (the table under R12, R17, R102). -/
def writes (i : Instr) (s : State) : List Location :=
  match i with
  | .add rd _ _ => [.reg rd, .zFlag, .sFlag]
  | .addi rd _ => [.reg rd, .zFlag, .sFlag]
  | .sub rd _ _ => [.reg rd, .zFlag, .sFlag]
  | .and rd _ _ => [.reg rd, .zFlag]
  | .or rd _ _ => [.reg rd, .zFlag]
  | .xor rd _ _ => [.reg rd, .zFlag]
  | .loadi rd _ => [.reg rd]
  | .load rd _ _ => [.reg rd]
  | .store _ rs1 off4 => [.data (effectiveAddress params s rs1 off4)]
  | .jmp _ => []
  | .brz _ => []
  | .brnz _ => []
  | .brns _ => []
  | .shl rd _ _ _ => [.reg rd, .zFlag]
  | .shr rd _ _ _ => [.reg rd, .zFlag]
  | .cmp _ _ => [.zFlag, .sFlag]
  | .nop _ => []

/-- The first place the instruction reads that is not among the defined ones. -/
def firstUnspecified (defined : List Location) (i : Instr) (s : State) : Option Location :=
  (reads i s).find? (fun l => decide (l ∉ defined))

/-- The stops of R131, with the machine's refusal beside them (no instruction is refused). -/
inductive Stop where
  | machine (f : Fault)
  | unmodelled (r : Refusal)
  | unspecifiedRead (what : Location)
  deriving DecidableEq, Repr

/-- What a checked step answers: the places defined from now on and the next state, or a stop. -/
inductive Checked where
  | next (defined : List Location) (s : State)
  | stop (r : Stop)
  deriving DecidableEq, Repr

/-- An instruction of the checked machine: it stops at the read of a place that nothing has defined since reset; otherwise
it runs, and what it writes is defined (R24, R131, D23). -/
def checkedExec (defined : List Location) (i : Instr) (s : State) : Checked :=
  match firstUnspecified defined i s with
  | some l => .stop (.unspecifiedRead l)
  | none =>
    match exec i s with
    | .next t => .next (writes i s ++ defined) t
    | .fault f => .stop (.machine f)
    | .refused r => .stop (.unmodelled r)

/-- The step under the recommended treatment of D23, its stops in the order fetch, decode, operand read (R131, R133). -/
def checkedStep (defined : List Location) (s : State) : Checked :=
  match instrAt params s s.pc with
  | none => .stop (.machine (.fetchUnloaded s.pc.toNat))
  | some w =>
    match decode w with
    | .reserved w' => .stop (.machine (.reservedEncoding w' s.pc.toNat))
    | .instr i => checkedExec defined i s

/-- Two states that agree on everything a checked run has defined: pc, the program, and the defined places. They may
differ in everything that is still unspecified. -/
def AgreeOn (defined : List Location) (s t : State) : Prop :=
  s.pc = t.pc ∧ (∀ a, instrAt params s a = instrAt params t a) ∧ ∀ l ∈ defined, valueAt s l = valueAt t l

end Sys2Proof.Safety
end

