-- ==== Sys2Proof/WellFormed.lean ====
section
/-! DEFINITION. Which instructions the assembler of 30_encoding.md R66 emits: the bits that a form ignores (R62) are
zero. Every other value of every field is legal (R63). The machine runs the others as well (D13: the bits are ignored). -/

namespace Sys2Proof

/-- The ignored bits of a shift: the field RS when Imm? = 1, the field Imm when Imm? = 0 (R57, R62). -/
def shiftFieldsWellFormed (rs : Reg) (immflag : Bool) (imm3 : BitVec 3) : Bool :=
  if immflag then rs == 0 else imm3 == 0

/-- The instruction's ignored bits are zero (R62, R66). -/
def wellFormed : Instr → Bool
  | .shl _ rs immflag imm3 => shiftFieldsWellFormed rs immflag imm3
  | .shr _ rs immflag imm3 => shiftFieldsWellFormed rs immflag imm3
  | .nop unused => unused == 0
  | .add _ _ _ => true
  | .addi _ _ => true
  | .sub _ _ _ => true
  | .and _ _ _ => true
  | .or _ _ _ => true
  | .xor _ _ _ => true
  | .loadi _ _ => true
  | .load _ _ _ => true
  | .store _ _ _ => true
  | .jmp _ => true
  | .brz _ => true
  | .brnz _ => true
  | .brns _ => true
  | .cmp _ _ => true

/-- The instruction with its ignored bits set to zero: what the assembler of R66 writes for it. -/
def canonical : Instr → Instr
  | .shl rd rs immflag imm3 => if immflag then .shl rd 0 true imm3 else .shl rd rs false 0
  | .shr rd rs immflag imm3 => if immflag then .shr rd 0 true imm3 else .shr rd rs false 0
  | .nop _ => .nop 0
  | .add rd rs1 rs2 => .add rd rs1 rs2
  | .addi rd imm8 => .addi rd imm8
  | .sub rd rs1 rs2 => .sub rd rs1 rs2
  | .and rd rs1 rs2 => .and rd rs1 rs2
  | .or rd rs1 rs2 => .or rd rs1 rs2
  | .xor rd rs1 rs2 => .xor rd rs1 rs2
  | .loadi rd imm8 => .loadi rd imm8
  | .load rd rs1 off4 => .load rd rs1 off4
  | .store rs2 rs1 off4 => .store rs2 rs1 off4
  | .jmp off12 => .jmp off12
  | .brz off12 => .brz off12
  | .brnz off12 => .brnz off12
  | .brns off12 => .brns off12
  | .cmp rs1 rs2 => .cmp rs1 rs2

end Sys2Proof
end

