-- ==== Sys2Proof/Certificates/Slice0/Obligations.lean ====
section
/-! DEFINITION. The statements for the provers. A statement has basis "stated" where the text of the rule it cites carries
no mark of a decision, a derivation or general knowledge; where the rule's text carries one, its docstring names it and the
statement has basis "derived". Every statement but those that quantify over parameters reads pc, words and registers as 16
bits wide (the spec's decisions D2, D3) and words with column 0 as bit 15 (D1). -/

open Sys2Proof Sys2Proof.Machine Sys2Proof.Safety

/-! ### Encoding -/

/-- The opcode map of R59, row by row: the match and mask of each form, and its operands at the columns of its pattern. The
last row is the reserved one. -/
def Obligations.OpcodeMapDecodes : Prop :=
  ∀ w : InstrWord,
    (w &&& 0xF000#16 = 0x0000#16 →
      decode w = .instr (.add (w.extractLsb' 8 4) (w.extractLsb' 4 4) (w.extractLsb' 0 4))) ∧
    (w &&& 0xF000#16 = 0x1000#16 → decode w = .instr (.addi (w.extractLsb' 8 4) (w.extractLsb' 0 8))) ∧
    (w &&& 0xF000#16 = 0x2000#16 →
      decode w = .instr (.sub (w.extractLsb' 8 4) (w.extractLsb' 4 4) (w.extractLsb' 0 4))) ∧
    (w &&& 0xF000#16 = 0x3000#16 →
      decode w = .instr (.and (w.extractLsb' 8 4) (w.extractLsb' 4 4) (w.extractLsb' 0 4))) ∧
    (w &&& 0xF000#16 = 0x4000#16 →
      decode w = .instr (.or (w.extractLsb' 8 4) (w.extractLsb' 4 4) (w.extractLsb' 0 4))) ∧
    (w &&& 0xF000#16 = 0x5000#16 →
      decode w = .instr (.xor (w.extractLsb' 8 4) (w.extractLsb' 4 4) (w.extractLsb' 0 4))) ∧
    (w &&& 0xF000#16 = 0x6000#16 → decode w = .instr (.loadi (w.extractLsb' 8 4) (w.extractLsb' 0 8))) ∧
    (w &&& 0xF000#16 = 0x7000#16 →
      decode w = .instr (.load (w.extractLsb' 8 4) (w.extractLsb' 4 4) (w.extractLsb' 0 4))) ∧
    (w &&& 0xF000#16 = 0x8000#16 →
      decode w = .instr (.store (w.extractLsb' 8 4) (w.extractLsb' 4 4) (w.extractLsb' 0 4))) ∧
    (w &&& 0xF000#16 = 0x9000#16 → decode w = .instr (.jmp (w.extractLsb' 0 12))) ∧
    (w &&& 0xF000#16 = 0xA000#16 → decode w = .instr (.brz (w.extractLsb' 0 12))) ∧
    (w &&& 0xF000#16 = 0xB000#16 → decode w = .instr (.brnz (w.extractLsb' 0 12))) ∧
    (w &&& 0xF000#16 = 0xC000#16 → decode w = .instr (.brns (w.extractLsb' 0 12))) ∧
    (w &&& 0xF008#16 = 0xD000#16 →
      decode w = .instr (.shl (w.extractLsb' 8 4) (w.extractLsb' 4 4) false (w.extractLsb' 0 3))) ∧
    (w &&& 0xF008#16 = 0xD008#16 →
      decode w = .instr (.shl (w.extractLsb' 8 4) (w.extractLsb' 4 4) true (w.extractLsb' 0 3))) ∧
    (w &&& 0xF008#16 = 0xE000#16 →
      decode w = .instr (.shr (w.extractLsb' 8 4) (w.extractLsb' 4 4) false (w.extractLsb' 0 3))) ∧
    (w &&& 0xF008#16 = 0xE008#16 →
      decode w = .instr (.shr (w.extractLsb' 8 4) (w.extractLsb' 4 4) true (w.extractLsb' 0 3))) ∧
    (w &&& 0xF00F#16 = 0xF000#16 → decode w = .instr (.cmp (w.extractLsb' 8 4) (w.extractLsb' 4 4))) ∧
    (w &&& 0xF00F#16 = 0xF00F#16 → decode w = .instr (.nop (w.extractLsb' 4 8))) ∧
    (w &&& 0xF000#16 = 0xF000#16 → w.extractLsb' 0 4 ≠ 0b0000#4 → w.extractLsb' 0 4 ≠ 0b1111#4 →
      decode w = .reserved w)

/-- Exactly the compare words with Nop? in 1 .. 14 are reserved; every other word is an instruction (30_encoding.md
sections 3 and 4; the reserved words are the spec's decision D14). -/
def Obligations.ReservedWordsAreExactlyTheUndefinedCompares : Prop :=
  ∀ w v : InstrWord, decode w = .reserved v ↔
    v = w ∧ w.toNat / 4096 = 15 ∧ 1 ≤ w.toNat % 16 ∧ w.toNat % 16 ≤ 14

/-- Decoding an encoded instruction gives it back, every operand at every value, the ignored bits among them. -/
def Obligations.DecodeEncodeRoundTrip : Prop :=
  ∀ i : Instr, decode (encode i) = .instr i

/-- No two words decode to one instruction: encoding gives back the word, the ignored bits among them. -/
def Obligations.EncodeDecodeRoundTrip : Prop :=
  ∀ (w : InstrWord) (i : Instr), decode w = .instr i → encode i = w

/-- Both round trips hold under either reading of the bit numbering, and the other reading gives the word with its bits in
the opposite order where no field is involved: the opcode (the spec's decision D1; log entry 7). -/
def Obligations.RoundTripsUnderEitherBitOrder : Prop :=
  ∀ (xlen pcw : Nat) (cfg : Config xlen pcw),
    (∀ i : Instr, decodeWith cfg (encodeWith cfg i) = .instr i) ∧
    (∀ (w : InstrWord) (i : Instr), decodeWith cfg w = .instr i → encodeWith cfg i = w) ∧
    (cfg.bit0IsMsb = false → ∀ i : Instr, ((encodeWith cfg i).extractLsb' 0 4).reverse = (encode i).extractLsb' 12 4)

/-- The bits a form does not use play no part when it runs (the spec's decision D13); the assembler's form of an
instruction has them zero. -/
def Obligations.IgnoredBitsDoNotMatter : Prop :=
  ∀ (i : Instr) (s : State),
    exec i s = exec (canonical i) s ∧ wellFormed (canonical i) = true ∧ (wellFormed i = true ↔ canonical i = i)

/-- Words of 95_test_vectors.md section 2.9, one of each family. -/
def Obligations.SampleWordsDecode : Prop :=
  decode 0x0ABC#16 = .instr (.add 10 11 12) ∧ decode 0x1F80#16 = .instr (.addi 15 0x80) ∧
  decode 0x73C9#16 = .instr (.load 3 12 9) ∧ decode 0x8C39#16 = .instr (.store 12 3 9) ∧
  decode 0xBFFF#16 = .instr (.brnz 0xFFF) ∧ decode 0xE987#16 = .instr (.shr 9 8 false 7) ∧
  decode 0xF3E0#16 = .instr (.cmp 3 14) ∧ decode 0xF3E5#16 = .reserved 0xF3E5#16

/-! ### The step -/

/-- A step runs the instruction that the fetched word decodes to, and adds nothing around it: the advance of pc is in the
instruction (10_state.md section 2; the sequential advance is general knowledge, G3). -/
def Obligations.StepRunsDecodedInstruction : Prop :=
  ∀ (s : State) (w : InstrWord) (i : Instr),
    instrAt params s s.pc = some w → decode w = .instr i → step s = exec i s

/-- A word placed for the next fetch is the word the next step fetches; the rest of the state is as before. -/
def Obligations.PlacedWordIsFetchedNext : Prop :=
  ∀ (s : State) (w : InstrWord),
    instrAt params (s.withFetchWord 16 w.toNat) (s.withFetchWord 16 w.toNat).pc = some w ∧
    (s.withFetchWord 16 w.toNat).pc = s.pc ∧ RegsUnchangedBut [] s (s.withFetchWord 16 w.toNat) ∧
    FlagsUnchanged s (s.withFetchWord 16 w.toNat) ∧ DataUnchangedBut [] s (s.withFetchWord 16 w.toNat) ∧
    ∀ a, a ≠ s.pc → instrAt params (s.withFetchWord 16 w.toNat) a = instrAt params s a

/-- The two stops of the machine and when each happens; nothing else stops it (60_exceptions.md section 1; the stops are
the spec's decisions D14 and D23). -/
def Obligations.StepStopsExactly : Prop :=
  ∀ s : State,
    (∀ f, step s = .fault f ↔
      (instrAt params s s.pc = none ∧ f = .fetchUnloaded s.pc.toNat) ∨
      (∃ w, instrAt params s s.pc = some w ∧ w.toNat / 4096 = 15 ∧ 1 ≤ w.toNat % 16 ∧ w.toNat % 16 ≤ 14 ∧
        f = .reservedEncoding w s.pc.toNat)) ∧
    ∀ r, step s ≠ .refused r

/-- Every instruction completes in every state: no exception, no privilege, no state in which it is refused
(60_exceptions.md sections 1 and 7; the spec's decision D15). -/
def Obligations.EveryInstructionCompletes : Prop :=
  ∀ (i : Instr) (s : State), ∃ t, exec i s = .next t

/-! ### Arithmetic operations -/

/-- add: the sum modulo 2^16, Z from the stored result, S the carry out (40_arithmetic.md; the spec's decisions D9, D11). -/
def Obligations.AddWritesSumAndFlags : Prop :=
  ∀ (rd rs1 rs2 : Reg) (s : State), ∃ t, exec (.add rd rs1 rs2) s = .next t ∧
    (readReg t rd).toNat = ((readReg s rs1).toNat + (readReg s rs2).toNat) % 2 ^ 16 ∧
    (t.zFlag = true ↔ readReg t rd = 0) ∧
    (t.sFlag = true ↔ 2 ^ 16 ≤ (readReg s rs1).toNat + (readReg s rs2).toNat) ∧
    RegsUnchangedBut [rd] s t ∧ DataUnchangedBut [] s t ∧ ProgramUnchanged s t ∧ t.pc = s.pc + 1

/-- addi: the sum with the signed immediate modulo 2^16; S is the carry out of the sum with the sign-extended immediate,
which for a negative immediate says that the result did not go below zero (the spec's decisions D9, D10, D11). -/
def Obligations.AddiWritesSumAndFlags : Prop :=
  ∀ (rd : Reg) (imm8 : BitVec 8) (s : State), ∃ t, exec (.addi rd imm8) s = .next t ∧
    ((readReg t rd).toNat : Int) = ((readReg s rd).toNat + imm8.toInt) % 2 ^ 16 ∧
    (t.zFlag = true ↔ readReg t rd = 0) ∧
    (t.sFlag = true ↔ if imm8.toInt < 0 then (0 : Int) ≤ (readReg s rd).toNat + imm8.toInt
      else (2 ^ 16 : Int) ≤ (readReg s rd).toNat + imm8.toInt) ∧
    RegsUnchangedBut [rd] s t ∧ DataUnchangedBut [] s t ∧ ProgramUnchanged s t ∧ t.pc = s.pc + 1

/-- sub (R83): its encoding, the difference modulo 2^16, Z, and S by SubUnderflow with its default. -/
def Obligations.SubWritesDifferenceAndFlags : Prop :=
  (∀ w : InstrWord, w &&& 0xF000#16 = 0x2000#16 →
    decode w = .instr (.sub (w.extractLsb' 8 4) (w.extractLsb' 4 4) (w.extractLsb' 0 4))) ∧
  ∀ (rd rs1 rs2 : Reg) (s : State), ∃ t, exec (.sub rd rs1 rs2) s = .next t ∧
    ((readReg t rd).toNat : Int) = ((readReg s rs1).toNat - (readReg s rs2).toNat : Int) % 2 ^ 16 ∧
    (t.zFlag = true ↔ readReg t rd = 0) ∧
    t.sFlag = params.subUnderflow (readReg s rs1) (readReg s rs2) ∧
    (params.subUnderflow (readReg s rs1) (readReg s rs2) = true ↔ (readReg s rs1).toNat < (readReg s rs2).toNat) ∧
    RegsUnchangedBut [rd] s t ∧ DataUnchangedBut [] s t ∧ ProgramUnchanged s t

/-- and (R84): its encoding, each bit of the result, Z; S keeps its value. -/
def Obligations.AndWritesConjunction : Prop :=
  (∀ w : InstrWord, w &&& 0xF000#16 = 0x3000#16 →
    decode w = .instr (.and (w.extractLsb' 8 4) (w.extractLsb' 4 4) (w.extractLsb' 0 4))) ∧
  ∀ (rd rs1 rs2 : Reg) (s : State), ∃ t, exec (.and rd rs1 rs2) s = .next t ∧
    (∀ k < 16, (readReg t rd).getLsbD k = ((readReg s rs1).getLsbD k && (readReg s rs2).getLsbD k)) ∧
    (t.zFlag = true ↔ readReg t rd = 0) ∧ t.sFlag = s.sFlag ∧
    RegsUnchangedBut [rd] s t ∧ DataUnchangedBut [] s t ∧ ProgramUnchanged s t

/-- or (R85): its encoding, each bit of the result, Z; S keeps its value. -/
def Obligations.OrWritesDisjunction : Prop :=
  (∀ w : InstrWord, w &&& 0xF000#16 = 0x4000#16 →
    decode w = .instr (.or (w.extractLsb' 8 4) (w.extractLsb' 4 4) (w.extractLsb' 0 4))) ∧
  ∀ (rd rs1 rs2 : Reg) (s : State), ∃ t, exec (.or rd rs1 rs2) s = .next t ∧
    (∀ k < 16, (readReg t rd).getLsbD k = ((readReg s rs1).getLsbD k || (readReg s rs2).getLsbD k)) ∧
    (t.zFlag = true ↔ readReg t rd = 0) ∧ t.sFlag = s.sFlag ∧
    RegsUnchangedBut [rd] s t ∧ DataUnchangedBut [] s t ∧ ProgramUnchanged s t

/-- xor (R86): its encoding, each bit of the result, Z; S keeps its value. -/
def Obligations.XorWritesExclusiveOr : Prop :=
  (∀ w : InstrWord, w &&& 0xF000#16 = 0x5000#16 →
    decode w = .instr (.xor (w.extractLsb' 8 4) (w.extractLsb' 4 4) (w.extractLsb' 0 4))) ∧
  ∀ (rd rs1 rs2 : Reg) (s : State), ∃ t, exec (.xor rd rs1 rs2) s = .next t ∧
    (∀ k < 16, (readReg t rd).getLsbD k = ((readReg s rs1).getLsbD k ^^ (readReg s rs2).getLsbD k)) ∧
    (t.zFlag = true ↔ readReg t rd = 0) ∧ t.sFlag = s.sFlag ∧
    RegsUnchangedBut [rd] s t ∧ DataUnchangedBut [] s t ∧ ProgramUnchanged s t

/-! ### Memory operations -/

/-- loadi (R100): its encoding, the sign-extended immediate, no flag. -/
def Obligations.LoadiWritesSignedImmediate : Prop :=
  (∀ w : InstrWord, w &&& 0xF000#16 = 0x6000#16 →
    decode w = .instr (.loadi (w.extractLsb' 8 4) (w.extractLsb' 0 8))) ∧
  ∀ (rd : Reg) (imm8 : BitVec 8) (s : State), ∃ t, exec (.loadi rd imm8) s = .next t ∧
    (readReg t rd).toInt = imm8.toInt ∧ FlagsUnchanged s t ∧
    RegsUnchangedBut [rd] s t ∧ DataUnchangedBut [] s t ∧ ProgramUnchanged s t

/-- load (R101): its encoding, the address modulo 2^16 from the old base, the whole word, no flag. Where nothing has
written the word, the value is the free value of its address (log entry 2), and the statement holds whatever it is. -/
def Obligations.LoadReadsAddressedWord : Prop :=
  (∀ w : InstrWord, w &&& 0xF000#16 = 0x7000#16 →
    decode w = .instr (.load (w.extractLsb' 8 4) (w.extractLsb' 4 4) (w.extractLsb' 0 4))) ∧
  ∀ (rd rs1 : Reg) (off4 : BitVec 4) (s : State), ∃ t, exec (.load rd rs1 off4) s = .next t ∧
    (effectiveAddress params s rs1 off4).toNat = ((readReg s rs1).toNat + off4.toNat) % 2 ^ 16 ∧
    readReg t rd = dataWord params s (effectiveAddress params s rs1 off4) ∧ FlagsUnchanged s t ∧
    RegsUnchangedBut [rd] s t ∧ DataUnchangedBut [] s t ∧ ProgramUnchanged s t

/-- store (R102): its encoding, the address modulo 2^16, the whole word replaced, no register and no flag. -/
def Obligations.StoreWritesAddressedWord : Prop :=
  (∀ w : InstrWord, w &&& 0xF000#16 = 0x8000#16 →
    decode w = .instr (.store (w.extractLsb' 8 4) (w.extractLsb' 4 4) (w.extractLsb' 0 4))) ∧
  ∀ (rs2 rs1 : Reg) (off4 : BitVec 4) (s : State), ∃ t, exec (.store rs2 rs1 off4) s = .next t ∧
    (effectiveAddress params s rs1 off4).toNat = ((readReg s rs1).toNat + off4.toNat) % 2 ^ 16 ∧
    dataWord params t (effectiveAddress params s rs1 off4) = readReg s rs2 ∧
    DataUnchangedBut [effectiveAddress params s rs1 off4] s t ∧
    RegsUnchangedBut [] s t ∧ FlagsUnchanged s t ∧ ProgramUnchanged s t

/-! ### Control flow operations -/

/-- jmp (R111): its encoding, its target modulo 2^16; nothing else changes. -/
def Obligations.JmpGoesToTarget : Prop :=
  (∀ w : InstrWord, w &&& 0xF000#16 = 0x9000#16 → decode w = .instr (.jmp (w.extractLsb' 0 12))) ∧
  ∀ (off12 : BitVec 12) (s : State), ∃ t, exec (.jmp off12) s = .next t ∧
    (t.pc.toNat : Int) = (s.pc.toNat + params.branchBase.toNat + off12.toInt) % 2 ^ 16 ∧
    RegsUnchangedBut [] s t ∧ FlagsUnchanged s t ∧ DataUnchangedBut [] s t ∧ ProgramUnchanged s t

/-- brz: taken exactly when Z = 1, to its own address plus the signed offset (the spec's decisions D4, D8). -/
def Obligations.BrzBranchesOnZeroSet : Prop :=
  ∀ (off12 : BitVec 12) (s : State), ∃ t, exec (.brz off12) s = .next t ∧
    (t.pc.toNat : Int) = (if s.zFlag = true then s.pc.toNat + off12.toInt else s.pc.toNat + 1) % 2 ^ 16 ∧
    RegsUnchangedBut [] s t ∧ FlagsUnchanged s t ∧ DataUnchangedBut [] s t ∧ ProgramUnchanged s t

/-- brnz: taken exactly when Z = 0, to its own address plus the signed offset (the spec's decisions D4, D8). -/
def Obligations.BrnzBranchesOnZeroClear : Prop :=
  ∀ (off12 : BitVec 12) (s : State), ∃ t, exec (.brnz off12) s = .next t ∧
    (t.pc.toNat : Int) = (if s.zFlag = false then s.pc.toNat + off12.toInt else s.pc.toNat + 1) % 2 ^ 16 ∧
    RegsUnchangedBut [] s t ∧ FlagsUnchanged s t ∧ DataUnchangedBut [] s t ∧ ProgramUnchanged s t

/-- brns: taken exactly when S = 0, to its own address plus the signed offset (the spec's decisions D4, D8; C1). -/
def Obligations.BrnsBranchesOnSpecificClear : Prop :=
  ∀ (off12 : BitVec 12) (s : State), ∃ t, exec (.brns off12) s = .next t ∧
    (t.pc.toNat : Int) = (if s.sFlag = false then s.pc.toNat + off12.toInt else s.pc.toNat + 1) % 2 ^ 16 ∧
    RegsUnchangedBut [] s t ∧ FlagsUnchanged s t ∧ DataUnchangedBut [] s t ∧ ProgramUnchanged s t

/-! ### Shift and compare operations -/

/-- shl (R121): both encodings, the amount of either form, the product modulo 2^16 or ShiftBig with its default, Z; S keeps
its value. -/
def Obligations.ShlShiftsLeft : Prop :=
  (∀ w : InstrWord,
    (w &&& 0xF008#16 = 0xD000#16 →
      decode w = .instr (.shl (w.extractLsb' 8 4) (w.extractLsb' 4 4) false (w.extractLsb' 0 3))) ∧
    (w &&& 0xF008#16 = 0xD008#16 →
      decode w = .instr (.shl (w.extractLsb' 8 4) (w.extractLsb' 4 4) true (w.extractLsb' 0 3)))) ∧
  ∀ (rd rs : Reg) (immflag : Bool) (imm3 : BitVec 3) (s : State) (amt : Nat),
    amt = (if immflag = true then imm3.toNat else (readReg s rs).toNat) →
    ∃ t, exec (.shl rd rs immflag imm3) s = .next t ∧
      (if amt < 16 then (readReg t rd).toNat = (readReg s rd).toNat * 2 ^ amt % 2 ^ 16
        else readReg t rd = params.shiftBig .shl (readReg s rd) amt ∧ readReg t rd = 0) ∧
      (t.zFlag = true ↔ readReg t rd = 0) ∧ t.sFlag = s.sFlag ∧
      RegsUnchangedBut [rd] s t ∧ DataUnchangedBut [] s t ∧ ProgramUnchanged s t

/-- shr (R122): both encodings, the amount of either form, the quotient (zeros enter at the top) or ShiftBig with its
default, Z; S keeps its value. -/
def Obligations.ShrShiftsRight : Prop :=
  (∀ w : InstrWord,
    (w &&& 0xF008#16 = 0xE000#16 →
      decode w = .instr (.shr (w.extractLsb' 8 4) (w.extractLsb' 4 4) false (w.extractLsb' 0 3))) ∧
    (w &&& 0xF008#16 = 0xE008#16 →
      decode w = .instr (.shr (w.extractLsb' 8 4) (w.extractLsb' 4 4) true (w.extractLsb' 0 3)))) ∧
  ∀ (rd rs : Reg) (immflag : Bool) (imm3 : BitVec 3) (s : State) (amt : Nat),
    amt = (if immflag = true then imm3.toNat else (readReg s rs).toNat) →
    ∃ t, exec (.shr rd rs immflag imm3) s = .next t ∧
      (if amt < 16 then (readReg t rd).toNat = (readReg s rd).toNat / 2 ^ amt
        else readReg t rd = params.shiftBig .shr (readReg s rd) amt ∧ readReg t rd = 0) ∧
      (t.zFlag = true ↔ readReg t rd = 0) ∧ t.sFlag = s.sFlag ∧
      RegsUnchangedBut [rd] s t ∧ DataUnchangedBut [] s t ∧ ProgramUnchanged s t

/-- cmp (R123): its encoding, both flags exactly as sub leaves them from the same state; no register changes. -/
def Obligations.CmpSetsFlagsOfDifference : Prop :=
  (∀ w : InstrWord, w &&& 0xF00F#16 = 0xF000#16 →
    decode w = .instr (.cmp (w.extractLsb' 8 4) (w.extractLsb' 4 4))) ∧
  ∀ (rs1 rs2 : Reg) (s : State), ∃ t, exec (.cmp rs1 rs2) s = .next t ∧
    (t.zFlag = true ↔ readReg s rs1 = readReg s rs2) ∧
    t.sFlag = params.subUnderflow (readReg s rs1) (readReg s rs2) ∧
    (params.subUnderflow (readReg s rs1) (readReg s rs2) = true ↔ (readReg s rs1).toNat < (readReg s rs2).toNat) ∧
    (∀ rd, ∃ u, exec (.sub rd rs1 rs2) s = .next u ∧ FlagsUnchanged t u) ∧
    RegsUnchangedBut [] s t ∧ DataUnchangedBut [] s t ∧ ProgramUnchanged s t

/-- nop (R124): its encoding with any ignored bits; the only state change is pc. -/
def Obligations.NopOnlyAdvances : Prop :=
  (∀ w : InstrWord, w &&& 0xF00F#16 = 0xF00F#16 → decode w = .instr (.nop (w.extractLsb' 4 8))) ∧
  ∀ (unused : BitVec 8) (s : State), exec (.nop unused) s = .next { s with pc := s.pc + 1 }

/-! ### Rules over all instructions -/

/-- The table of R17, row by row: which instruction writes which flag, and by which rule; a flag an instruction does not
modify keeps its value. -/
def Obligations.FlagTable : Prop :=
  ∀ (i : Instr) (s : State), ∃ t, exec i s = .next t ∧
    match i with
    | .add rd rs1 rs2 =>
      (t.zFlag = true ↔ readReg t rd = 0) ∧ t.sFlag = params.addOverflow (readReg s rs1) (readReg s rs2)
    | .addi rd imm8 => (t.zFlag = true ↔ readReg t rd = 0) ∧ t.sFlag = params.addiOpSpecific (readReg s rd) imm8
    | .sub rd rs1 rs2 =>
      (t.zFlag = true ↔ readReg t rd = 0) ∧ t.sFlag = params.subUnderflow (readReg s rs1) (readReg s rs2)
    | .and rd _ _ => (t.zFlag = true ↔ readReg t rd = 0) ∧ t.sFlag = s.sFlag
    | .or rd _ _ => (t.zFlag = true ↔ readReg t rd = 0) ∧ t.sFlag = s.sFlag
    | .xor rd _ _ => (t.zFlag = true ↔ readReg t rd = 0) ∧ t.sFlag = s.sFlag
    | .loadi _ _ => t.zFlag = s.zFlag ∧ t.sFlag = s.sFlag
    | .load _ _ _ => t.zFlag = s.zFlag ∧ t.sFlag = s.sFlag
    | .store _ _ _ => t.zFlag = s.zFlag ∧ t.sFlag = s.sFlag
    | .jmp _ => t.zFlag = s.zFlag ∧ t.sFlag = s.sFlag
    | .brz _ => t.zFlag = s.zFlag ∧ t.sFlag = s.sFlag
    | .brnz _ => t.zFlag = s.zFlag ∧ t.sFlag = s.sFlag
    | .brns _ => t.zFlag = s.zFlag ∧ t.sFlag = s.sFlag
    | .shl rd _ _ _ => (t.zFlag = true ↔ readReg t rd = 0) ∧ t.sFlag = s.sFlag
    | .shr rd _ _ _ => (t.zFlag = true ↔ readReg t rd = 0) ∧ t.sFlag = s.sFlag
    | .cmp rs1 rs2 =>
      (t.zFlag = true ↔ readReg s rs1 - readReg s rs2 = 0) ∧
        t.sFlag = params.subUnderflow (readReg s rs1) (readReg s rs2)
    | .nop _ => t.zFlag = s.zFlag ∧ t.sFlag = s.sFlag

/-- Changing the flags of a state changes nothing that an instruction other than the conditional branches does: each flag
afterwards is the same or, where the instruction does not write it, the changed one. brz and brnz do not read S, brns does
not read Z (10_state.md section 3). -/
def Obligations.FlagsReadOnlyByBranches : Prop :=
  ∀ (i : Instr) (s t : State) (z o : Bool), exec i s = .next t →
    match i with
    | .brz _ => exec i { s with sFlag := o } = .next { t with sFlag := o }
    | .brnz _ => exec i { s with sFlag := o } = .next { t with sFlag := o }
    | .brns _ => exec i { s with zFlag := z } = .next { t with zFlag := z }
    | _ => ∃ z' o', exec i { s with zFlag := z, sFlag := o } = .next { t with zFlag := z', sFlag := o' } ∧
        (z' = t.zFlag ∨ z' = z ∧ t.zFlag = s.zFlag) ∧ (o' = t.sFlag ∨ o' = o ∧ t.sFlag = s.sFlag)

/-- An instruction changes no place but those it names: the registers and flags of the tables of 10_state.md sections 1 and
3, the data word it addresses. No register has a special role, register 0 among them. -/
def Obligations.OnlyNamedPlacesAreWritten : Prop :=
  ∀ (i : Instr) (s t : State), exec i s = .next t →
    (∀ l, l ∉ writes i s → valueAt t l = valueAt s l) ∧ ProgramUnchanged s t

/-- What an instruction writes depends only on the places it names as read: two states that agree there, and in pc, agree
after it on every place it writes, which are the same places, and in pc (10_state.md sections 1 and 3; D21). -/
def Obligations.OnlyNamedPlacesAreRead : Prop :=
  ∀ (i : Instr) (s s' t t' : State), s.pc = s'.pc → (∀ l ∈ reads i s, valueAt s l = valueAt s' l) →
    exec i s = .next t → exec i s' = .next t' →
    writes i s = writes i s' ∧ t.pc = t'.pc ∧ ∀ l ∈ writes i s, valueAt t l = valueAt t' l

/-- pc moves to the next address but for jmp and a taken branch, which go to their target; both modulo 2^16 (10_state.md
section 2, 42_control_flow.md section 3; general knowledge G3 and the spec's decisions D3, D4, D8, D22). -/
def Obligations.PcAdvancesUnlessJumping : Prop :=
  ∀ (i : Instr) (s t : State), exec i s = .next t →
    (t.pc.toNat : Int) = (match i with
      | .jmp off12 => s.pc.toNat + off12.toInt
      | .brz off12 => if s.zFlag then s.pc.toNat + off12.toInt else s.pc.toNat + 1
      | .brnz off12 => if s.zFlag then s.pc.toNat + 1 else s.pc.toNat + off12.toInt
      | .brns off12 => if s.sFlag then s.pc.toNat + 1 else s.pc.toNat + off12.toInt
      | _ => s.pc.toNat + 1) % 2 ^ 16

/-- No step changes the program: the separate instruction memory cannot be written (10_state.md section 6, 20_memory.md
section 9; the spec's decision D5). -/
def Obligations.StepNeverChangesProgram : Prop :=
  ∀ s t : State, step s = .next t → t.imem = s.imem ∧ ProgramUnchanged s t

/-- Only a store changes a data word, and only the word it addresses (20_memory.md sections 3 and 6). -/
def Obligations.OnlyStoreChangesData : Prop :=
  ∀ (i : Instr) (s t : State), exec i s = .next t →
    ∀ a, dataWord params t a ≠ dataWord params s a →
      ∃ rs2 rs1 off4, i = .store rs2 rs1 off4 ∧ a = effectiveAddress params s rs1 off4

/-- Every step keeps both memories in canonical form, a list of (address, word) pairs with strictly rising addresses below
2^16. The form is the model's own choice (log entry 3), no rule of the spec. -/
def Obligations.StepKeepsMemoriesCanonical : Prop :=
  ∀ s t : State, MemoriesCanonical s → step s = .next t → MemoriesCanonical t

/-- The state after reset has both memories in the canonical form, which is the model's own choice (log entry 3), no rule
of the spec. -/
def Obligations.ResetMemoriesCanonical : Prop := MemoriesCanonical State.reset

/-- After a store, a load from the same address answers the stored word and a load from any other address what it would
have answered before (20_memory.md section 6; the spec's decisions D6, D19). -/
def Obligations.LoadReturnsLastStore : Prop :=
  ∀ (rs2 rs1 : Reg) (off4 : BitVec 4) (s : State), ∃ t, exec (.store rs2 rs1 off4) s = .next t ∧
    ∀ (rd base : Reg) (off : BitVec 4), ∃ u, exec (.load rd base off) t = .next u ∧
      readReg u rd = if effectiveAddress params t base off = effectiveAddress params s rs1 off4 then readReg s rs2
        else dataWord params s (effectiveAddress params s base off)

/-! ### Reset, the program, the end of a run -/

/-- The state after reset: pc = RESET_PC = 0 (the spec's decision D16) and no data word written. That no instruction word is
loaded (log entry 5: a program is placed from outside) and that registers and flags hold zero (log entry 1) are the model's
own choices, no rules of the spec. -/
def Obligations.ResetState : Prop :=
  AfterReset State.reset ∧ State.reset.pc = 0 ∧ (∀ a, instrAt params State.reset a = none) ∧
  (∀ r, readReg State.reset r = 0) ∧ State.reset.zFlag = false ∧ State.reset.sFlag = false

/-- From every state the spec permits after reset, execution begins with the word at address 0, and every data word still
has its unknown initial content (70_reset_and_hazards.md section 1; the spec's decision D16; log entry 2). -/
def Obligations.ExecutionBeginsAtAddressZero : Prop :=
  ∀ s : State, AfterReset s →
    (instrAt params s 0 = none → step s = .fault (.fetchUnloaded 0)) ∧
    (∀ w i, instrAt params s 0 = some w → decode w = .instr i → step s = exec i s) ∧
    ∀ a, dataWord params s a = Config.unwrittenWord a

/-- A program image stands in instruction memory from address 0 on, in order; every other word is as before
(70_reset_and_hazards.md sections 2 and 6; the spec's decisions D16, D19). -/
def Obligations.LoadedImageIsInPlace : Prop :=
  ∀ (image : List InstrWord) (s : State), image.length ≤ 2 ^ 16 →
    ∀ a : PC, instrAt params (loadImage image s) a =
      if h : a.toNat < image.length then some image[a.toNat] else instrAt params s a

/-- The states that the step maps to themselves are exactly those at jmp 0, or at a branch with offset 0 that is taken
(70_reset_and_hazards.md section 5; the spec's decisions D4, D17). -/
def Obligations.QuiescentStatesAreSelfLoops : Prop :=
  ∀ s : State, Quiescent s ↔
    instrAt params s s.pc = some 0x9000#16 ∨
    (instrAt params s s.pc = some 0xA000#16 ∧ s.zFlag = true) ∨
    (instrAt params s s.pc = some 0xB000#16 ∧ s.zFlag = false) ∨
    (instrAt params s s.pc = some 0xC000#16 ∧ s.sFlag = false)

/-- Under BRANCH_BASE = 1 the self-loops are the same jumps with offset -1 instead (70_reset_and_hazards.md section 5;
C9, D17). -/
def Obligations.QuiescentStatesUnderBranchBaseOne : Prop :=
  ∀ s : State, stepWith { params with branchBase := 1 } s = .next s ↔
    instrAt params s s.pc = some 0x9FFF#16 ∨
    (instrAt params s s.pc = some 0xAFFF#16 ∧ s.zFlag = true) ∨
    (instrAt params s s.pc = some 0xBFFF#16 ∧ s.zFlag = false) ∨
    (instrAt params s s.pc = some 0xCFFF#16 ∧ s.sFlag = false)

/-- A state at one of the self-loop words, under its flag condition, is final: every run of any length stays there
(70_reset_and_hazards.md section 5; the spec's decisions D4, D17). -/
def Obligations.SelfLoopIsFinal : Prop :=
  ∀ s : State,
    instrAt params s s.pc = some 0x9000#16 ∨
    (instrAt params s s.pc = some 0xA000#16 ∧ s.zFlag = true) ∨
    (instrAt params s s.pc = some 0xB000#16 ∧ s.zFlag = false) ∨
    (instrAt params s s.pc = some 0xC000#16 ∧ s.sFlag = false) →
    ∀ k : Nat, Host.Core.run core k s = .next s

/-! ### What the instructions give together -/

/-- After cmp, brz is taken exactly when the operands are equal, brnz when they differ, brns when the first is not below the
second as an unsigned number (43_shift_compare.md section 2; the spec's decisions D4, D8, D9). -/
def Obligations.CompareThenBranch : Prop :=
  ∀ (rs1 rs2 : Reg) (off12 : BitVec 12) (s : State), ∃ t, exec (.cmp rs1 rs2) s = .next t ∧
    (∃ u, exec (.brz off12) t = .next u ∧
      u.pc = if readReg s rs1 = readReg s rs2 then t.pc + off12.signExtend 16 else t.pc + 1) ∧
    (∃ u, exec (.brnz off12) t = .next u ∧
      u.pc = if readReg s rs1 ≠ readReg s rs2 then t.pc + off12.signExtend 16 else t.pc + 1) ∧
    (∃ u, exec (.brns off12) t = .next u ∧
      u.pc = if (readReg s rs2).toNat ≤ (readReg s rs1).toNat then t.pc + off12.signExtend 16 else t.pc + 1)

/-- Subtracting a constant of 1 to 128 is addi with the negated constant; S then says that the result did not go below
zero, the opposite of sub (30_encoding.md section 7, 40_arithmetic.md section 2; the spec's decisions D9, D10). -/
def Obligations.SubtractImmediateIdiom : Prop :=
  ∀ (rd : Reg) (k : Nat) (s : State), 1 ≤ k → k ≤ 128 →
    ∃ t, exec (.addi rd (BitVec.ofInt 8 (-k))) s = .next t ∧
      readReg t rd = readReg s rd - BitVec.ofNat 16 k ∧
      (t.zFlag = true ↔ (readReg s rd).toNat = k) ∧ (t.sFlag = true ↔ k ≤ (readReg s rd).toNat)

/-- After sub and after cmp, Z and S are never both 1 (40_arithmetic.md section 2; the spec's decision D9). -/
def Obligations.ZeroAndBorrowNeverTogether : Prop :=
  ∀ (rd rs1 rs2 : Reg) (s t : State),
    exec (.sub rd rs1 rs2) s = .next t ∨ exec (.cmp rs1 rs2) s = .next t → ¬(t.zFlag = true ∧ t.sFlag = true)

/-! ### The parameters of 00_scope.md section 4 -/

/-- The parameters of this machine are the spec's defaults, the widths among them (the spec's decisions D1 to D16), the
initial data words the free value (log entry 2). -/
def Obligations.DefaultParameters : Prop :=
  parameters.xlen = 16 ∧ parameters.pcw = 16 ∧ params.unitsPerInstr = 1 ∧ params.reservedCmp = .stop ∧
  params.bit0IsMsb = true ∧ params.branchBase = 0 ∧ params.memOrg = .harvard ∧ params.dmemWords = 2 ^ 16 ∧
  params.imemWords = 2 ^ 16 ∧ params.lsOffsetSigned = false ∧ params.brOffsetSigned = true ∧ params.resetPc = 0 ∧
  (∀ a b : Word, params.addOverflow a b = true ↔ 2 ^ 16 ≤ a.toNat + b.toNat) ∧
  (∀ a b : Word, params.subUnderflow a b = true ↔ a.toNat < b.toNat) ∧
  (∀ (a : Word) (imm8 : BitVec 8), params.addiOpSpecific a imm8 = params.addOverflow a (imm8.signExtend 16)) ∧
  (∀ op v amt, params.shiftBig op v amt = 0) ∧ params.initialData = Config.unwrittenWord

/-- Whichever functions give the Op specific flag, an instruction's other effects are the same: only S can differ
(93_implementation_defined.md U2, U3). -/
def Obligations.FlagFunctionsReachOnlyS : Prop :=
  ∀ (xlen pcw : Nat) (cfg : Config xlen pcw) (f g : Word xlen → Word xlen → Bool) (h : Word xlen → BitVec 8 → Bool)
    (i : Instr) (s t : State.Of xlen pcw),
    execWith cfg i s = .next t →
    ∃ b, execWith { cfg with addOverflow := f, subUnderflow := g, addiOpSpecific := h } i s =
      .next { t with sFlag := b }

/-- A store is never seen by fetch under MEM_ORG = harvard, and is seen at once, in the word stored to and in no other,
under MEM_ORG = unified, which needs XLEN = 16 (20_memory.md section 9; the spec's decision D5). The word is that of the
address under PC_UNIT = one instruction. -/
def Obligations.StoreAndFetchUnderEitherOrganisation : Prop :=
  (∀ (xlen pcw : Nat) (cfg : Config xlen pcw) (rs2 rs1 : Reg) (off4 : BitVec 4) (s t : State.Of xlen pcw),
    execWith cfg (.store rs2 rs1 off4) s = .next t → cfg.memOrg = .harvard → ∀ a, instrAt cfg t a = instrAt cfg s a) ∧
  ∀ (pcw : Nat) (cfg : Config 16 pcw) (rs2 rs1 : Reg) (off4 : BitVec 4) (s t : State.Of 16 pcw),
    execWith cfg (.store rs2 rs1 off4) s = .next t → cfg.memOrg = .unified → cfg.unitsPerInstr = 1 →
    ∀ a : PC pcw, a.toNat < cfg.imemWords →
      instrAt cfg t a =
        if a.toNat = (effectiveAddress cfg s rs1 off4).toNat then some (readReg s rs2) else instrAt cfg s a

/-- With DMEM_WORDS words of data memory, load and store complete exactly below it and have no step at or above it
(20_memory.md section 4, 93_implementation_defined.md U16; D20). -/
def Obligations.AbsentDataWordsStopLoadAndStore : Prop :=
  ∀ (xlen pcw : Nat) (cfg : Config xlen pcw) (r base : Reg) (off4 : BitVec 4) (s : State.Of xlen pcw),
    if (effectiveAddress cfg s base off4).toNat < cfg.dmemWords then
      (∃ t, execWith cfg (.load r base off4) s = .next t) ∧ ∃ t, execWith cfg (.store r base off4) s = .next t
    else
      execWith cfg (.load r base off4) s = .fault (.absentDataWord (effectiveAddress cfg s base off4).toNat) ∧
      execWith cfg (.store r base off4) s = .fault (.absentDataWord (effectiveAddress cfg s base off4).toNat)

/-! ### Unspecified state: the recommended treatment (10_state.md section 8; the spec's decision D23) -/

/-- Where the checked machine goes on, it is the machine. -/
def Obligations.CheckedStepRefinesStep : Prop :=
  ∀ (defined defined' : List Location) (s t : State), checkedStep defined s = .next defined' t → step s = .next t

/-- The checked machine stops with UnspecifiedRead exactly when the instruction it runs reads a place that nothing has
defined, and names the first such place. -/
def Obligations.CheckedStepStopsAtUnspecifiedRead : Prop :=
  ∀ (defined : List Location) (s : State) (w : InstrWord) (i : Instr) (l : Location),
    instrAt params s s.pc = some w → decode w = .instr i →
    (checkedStep defined s = .stop (.unspecifiedRead l) ↔
      ∃ before after, reads i s = before ++ l :: after ∧ (∀ x ∈ before, x ∈ defined) ∧ l ∉ defined)

/-- A checked run never lets unspecified state show: from two states that agree on pc, the program and what has been
defined, it stops with the same stop, or goes on defining the same places and the next states agree in the same way. -/
def Obligations.CheckedStepHidesUnspecifiedState : Prop :=
  ∀ (defined : List Location) (s s' : State), AgreeOn defined s s' →
    (∃ r, checkedStep defined s = .stop r ∧ checkedStep defined s' = .stop r) ∨
    ∃ defined' t t', checkedStep defined s = .next defined' t ∧ checkedStep defined s' = .next defined' t' ∧
      AgreeOn defined' t t'

/-! ### The machine under every width and every other parameter (00_scope.md section 4) -/

/-- This machine is the parametric machine at the default parameters: its instructions, its step, its reset. -/
def Obligations.MachineIsParametricAtDefaults : Prop :=
  (∀ (i : Instr) (s : State), execWith parameters.config i s = exec i s) ∧
  (∀ s : State, stepWith parameters.config s = step s) ∧ State.resetWith parameters.config = State.reset

/-- The arithmetic of registers under every admissible XLEN: results modulo 2^XLEN, immediates sign-extended to XLEN bits, Z
from the stored result (40_arithmetic.md sections 1 and 2, 30_encoding.md section 3; D2, D9, D11). -/
def Obligations.ArithmeticUnderEveryWidth : Prop :=
  ∀ P : Parameters, P.Admissible → ∀ (rd rs1 rs2 : Reg) (imm8 : BitVec 8) (s : State.Of P.xlen P.pcw),
    (∃ t, execWith P.config (.add rd rs1 rs2) s = .next t ∧ (t.zFlag = true ↔ readReg t rd = 0) ∧
      (readReg t rd).toNat = ((readReg s rs1).toNat + (readReg s rs2).toNat) % 2 ^ P.xlen) ∧
    (∃ t, execWith P.config (.sub rd rs1 rs2) s = .next t ∧ (t.zFlag = true ↔ readReg t rd = 0) ∧
      ((readReg t rd).toNat : Int) = ((readReg s rs1).toNat - (readReg s rs2).toNat : Int) % 2 ^ P.xlen) ∧
    (∃ t, execWith P.config (.addi rd imm8) s = .next t ∧ (t.zFlag = true ↔ readReg t rd = 0) ∧
      ((readReg t rd).toNat : Int) = ((readReg s rd).toNat + imm8.toInt) % 2 ^ P.xlen) ∧
    ∃ t, execWith P.config (.loadi rd imm8) s = .next t ∧ (readReg t rd).toInt = imm8.toInt

/-- The shifts under every admissible XLEN: by less than XLEN the product modulo 2^XLEN and the floor of the quotient, from
XLEN on ShiftBig (43_shift_compare.md sections 1 and 2; D2, D12). -/
def Obligations.ShiftsUnderEveryWidth : Prop :=
  ∀ P : Parameters, P.Admissible → ∀ (rd rs : Reg) (immflag : Bool) (imm3 : BitVec 3) (s : State.Of P.xlen P.pcw),
    ∀ amt, amt = (if immflag = true then imm3.toNat else (readReg s rs).toNat) →
    (∃ t, execWith P.config (.shl rd rs immflag imm3) s = .next t ∧
      (amt < P.xlen → (readReg t rd).toNat = (readReg s rd).toNat * 2 ^ amt % 2 ^ P.xlen) ∧
      (P.xlen ≤ amt → readReg t rd = P.config.shiftBig .shl (readReg s rd) amt)) ∧
    ∃ t, execWith P.config (.shr rd rs immflag imm3) s = .next t ∧
      (amt < P.xlen → (readReg t rd).toNat = (readReg s rd).toNat / 2 ^ amt) ∧
      (P.xlen ≤ amt → readReg t rd = P.config.shiftBig .shr (readReg s rd) amt)

/-- load and store under every admissible XLEN and either LS_OFFSET_SIGNED: the address modulo 2^XLEN, the whole word, and,
below DMEM_WORDS, a next state (20_memory.md sections 4 and 6; D2, D6, D7). -/
def Obligations.LoadAndStoreUnderEveryWidth : Prop :=
  ∀ P : Parameters, P.Admissible → ∀ (r base : Reg) (off4 : BitVec 4) (s : State.Of P.xlen P.pcw) (addr : Word P.xlen),
    (addr.toNat : Int) =
      ((readReg s base).toNat + if P.config.lsOffsetSigned = true then off4.toInt else off4.toNat) % 2 ^ P.xlen →
    addr.toNat < P.config.dmemWords →
    (∃ t, execWith P.config (.load r base off4) s = .next t ∧ readReg t r = dataWord P.config s addr) ∧
    ∃ t, execWith P.config (.store r base off4) s = .next t ∧
      ∀ a, dataWord P.config t a = if a = addr then readReg s r else dataWord P.config s a

/-- pc under every admissible PCW, PC_UNIT and BRANCH_BASE, modulo 2^PCW: one instruction on, or to the target of jmp or of
a taken branch, whose offset is signed as BR_OFFSET_SIGNED says (10_state.md section 2, 42_control_flow.md section 1; D3,
D4, D8). That BRANCH_BASE and the offset are added unscaled, in pc units, where PC_UNIT
is not one instruction (log entry 6), and that a pc inside an instruction fetches nothing and stops (log entry 14) are the
model's own choices. -/
def Obligations.PcUnderEveryWidthAndUnit : Prop :=
  ∀ P : Parameters, P.Admissible →
    (∀ s : State.Of P.xlen P.pcw, s.pc.toNat % P.config.unitsPerInstr ≠ 0 →
      stepWith P.config s = .fault (.fetchUnloaded s.pc.toNat)) ∧
    ∀ (i : Instr) (s t : State.Of P.xlen P.pcw), execWith P.config i s = .next t →
    (t.pc.toNat : Int) = (match i with
      | .jmp off12 => s.pc.toNat + P.config.branchBase.toNat + off12.toInt
      | .brz off12 => if s.zFlag = true then s.pc.toNat + P.config.branchBase.toNat +
          (if P.config.brOffsetSigned = true then off12.toInt else off12.toNat) else s.pc.toNat + P.config.unitsPerInstr
      | .brnz off12 => if s.zFlag = false then s.pc.toNat + P.config.branchBase.toNat +
          (if P.config.brOffsetSigned = true then off12.toInt else off12.toNat) else s.pc.toNat + P.config.unitsPerInstr
      | .brns off12 => if s.sFlag = false then s.pc.toNat + P.config.branchBase.toNat +
          (if P.config.brOffsetSigned = true then off12.toInt else off12.toNat) else s.pc.toNat + P.config.unitsPerInstr
      | _ => s.pc.toNat + P.config.unitsPerInstr) % 2 ^ P.pcw

/-- A reserved compare word under each value of RESERVED_CMP: the stop, or what a chip does that compares, or one that does
nothing. This machine takes the stop; R125 says that a model must take neither of the others (43_shift_compare.md section
2; D14). -/
def Obligations.ReservedWordUnderEachValue : Prop :=
  ∀ (xlen pcw : Nat) (cfg : Config xlen pcw) (s : State.Of xlen pcw) (w v : InstrWord), cfg.bit0IsMsb = true →
    instrAt cfg s s.pc = some w → decodeWith cfg w = .reserved v →
    (cfg.reservedCmp = .stop → stepWith cfg s = .fault (.reservedEncoding w s.pc.toNat)) ∧
    (cfg.reservedCmp = .compare →
      stepWith cfg s = execWith cfg (.cmp (w.extractLsb' 8 4) (w.extractLsb' 4 4)) s) ∧
    (cfg.reservedCmp = .nothing → stepWith cfg s = .next { s with pc := s.pc + BitVec.ofNat pcw cfg.unitsPerInstr })
end

