-- ==== Sys2Proof/Laws/Params.lean ====
section
/-! SUPPORT. The value of each parameter of this machine (the defaults of 00_scope.md R5). -/

namespace Sys2Proof.Machine

@[simp] theorem params_bit0IsMsb : params.bit0IsMsb = true := rfl
@[simp] theorem params_unitsPerInstr : params.unitsPerInstr = 1 := rfl
@[simp] theorem params_branchBase : params.branchBase = 0 := rfl
@[simp] theorem params_memOrg : params.memOrg = .harvard := rfl
@[simp] theorem params_dmemWords : params.dmemWords = 65536 := rfl
@[simp] theorem params_imemWords : params.imemWords = 65536 := rfl
@[simp] theorem params_lsOffsetSigned : params.lsOffsetSigned = false := rfl
@[simp] theorem params_brOffsetSigned : params.brOffsetSigned = true := rfl
@[simp] theorem params_addOverflow : params.addOverflow = addCarry := rfl
@[simp] theorem params_subUnderflow : params.subUnderflow = subBorrow := rfl
@[simp] theorem params_addiOpSpecific : params.addiOpSpecific = addiCarry := rfl
@[simp] theorem params_shiftBig : params.shiftBig = shiftBigZero := rfl
@[simp] theorem params_reservedCmp : params.reservedCmp = .stop := rfl
@[simp] theorem params_resetPc : params.resetPc = 0 := rfl
@[simp] theorem params_initialData : params.initialData = Config.unwrittenWord := rfl

@[simp] theorem parameters_xlen : parameters.xlen = 16 := rfl
@[simp] theorem parameters_pcw : parameters.pcw = 16 := rfl
@[simp] theorem parameters_config : parameters.config = params := rfl

end Sys2Proof.Machine
end

