-- ==== Sys2Proof/Laws/Decode.lean ====
section
/-! SUPPORT. Fields and layouts as numbers, the fields of a laid-out word, and the bit order of this machine. -/

namespace Sys2Proof

/-! ### Fields and layouts as numbers -/

/-- A field read from a word is a quotient and a remainder. -/
theorem field_toNat (w : InstrWord) (lo n : Nat) : (w.extractLsb' lo n).toNat = w.toNat / 2 ^ lo % 2 ^ n := by
  simp [BitVec.extractLsb'_toNat, Nat.shiftRight_eq_div_pow]

/-- Column C, the Imm? bit of a shift. -/
theorem colC_eq (w : InstrWord) : w.getLsbD 3 = decide (w.toNat / 8 % 2 = 1) := by
  rw [BitVec.getLsbD, Nat.testBit_eq_decide_div_mod_eq]

theorem layoutNibbles_toNat (op a b c : BitVec 4) : (layoutNibbles op a b c).toNat =
    op.toNat * 4096 + a.toNat * 256 + b.toNat * 16 + c.toNat := by
  have h : layoutNibbles op a b c = (op ++ a ++ b ++ c).setWidth 16 := (BitVec.setWidth_eq _).symm
  rw [h, BitVec.toNat_setWidth, BitVec.toNat_append, BitVec.toNat_append, BitVec.toNat_append]
  simp only [← Nat.shiftLeft_add_eq_or_of_lt (BitVec.isLt _)]
  omega

theorem layoutImm8_toNat (op a : BitVec 4) (imm8 : BitVec 8) : (layoutImm8 op a imm8).toNat =
    op.toNat * 4096 + a.toNat * 256 + imm8.toNat := by
  have h : layoutImm8 op a imm8 = (op ++ a ++ imm8).setWidth 16 := (BitVec.setWidth_eq _).symm
  rw [h, BitVec.toNat_setWidth, BitVec.toNat_append, BitVec.toNat_append]
  simp only [← Nat.shiftLeft_add_eq_or_of_lt (BitVec.isLt _)]
  omega

theorem layoutOff12_toNat (op : BitVec 4) (off12 : BitVec 12) : (layoutOff12 op off12).toNat =
    op.toNat * 4096 + off12.toNat := by
  have h : layoutOff12 op off12 = (op ++ off12).setWidth 16 := (BitVec.setWidth_eq _).symm
  rw [h, BitVec.toNat_setWidth, BitVec.toNat_append]
  simp only [← Nat.shiftLeft_add_eq_or_of_lt (BitVec.isLt _)]
  omega

theorem layoutShift_toNat (op a b : BitVec 4) (immflag : Bool) (imm3 : BitVec 3) :
    (layoutShift op a b immflag imm3).toNat =
      op.toNat * 4096 + a.toNat * 256 + b.toNat * 16 + immflag.toNat * 8 + imm3.toNat := by
  have h : layoutShift op a b immflag imm3 = (op ++ a ++ b ++ BitVec.ofBool immflag ++ imm3).setWidth 16 :=
    (BitVec.setWidth_eq _).symm
  rw [h, BitVec.toNat_setWidth, BitVec.toNat_append, BitVec.toNat_append, BitVec.toNat_append, BitVec.toNat_append]
  simp only [← Nat.shiftLeft_add_eq_or_of_lt (BitVec.isLt _)]
  rw [BitVec.toNat_ofBool]
  have := Bool.toNat_le immflag
  omega

theorem layoutNop_toNat (op : BitVec 4) (unused : BitVec 8) (nopf : BitVec 4) : (layoutNop op unused nopf).toNat =
    op.toNat * 4096 + unused.toNat * 16 + nopf.toNat := by
  have h : layoutNop op unused nopf = (op ++ unused ++ nopf).setWidth 16 := (BitVec.setWidth_eq _).symm
  rw [h, BitVec.toNat_setWidth, BitVec.toNat_append, BitVec.toNat_append]
  simp only [← Nat.shiftLeft_add_eq_or_of_lt (BitVec.isLt _)]
  omega

/-! ### The opcode of a laid-out word -/

theorem layoutNibbles_opcode (op a b c : BitVec 4) : (layoutNibbles op a b c).extractLsb' 12 4 = op := by
  apply BitVec.eq_of_toNat_eq
  rw [field_toNat, layoutNibbles_toNat]
  omega

theorem layoutImm8_opcode (op a : BitVec 4) (imm8 : BitVec 8) : (layoutImm8 op a imm8).extractLsb' 12 4 = op := by
  apply BitVec.eq_of_toNat_eq
  rw [field_toNat, layoutImm8_toNat]
  omega

theorem layoutOff12_opcode (op : BitVec 4) (off12 : BitVec 12) : (layoutOff12 op off12).extractLsb' 12 4 = op := by
  apply BitVec.eq_of_toNat_eq
  rw [field_toNat, layoutOff12_toNat]
  omega

theorem layoutShift_opcode (op a b : BitVec 4) (immflag : Bool) (imm3 : BitVec 3) :
    (layoutShift op a b immflag imm3).extractLsb' 12 4 = op := by
  apply BitVec.eq_of_toNat_eq
  rw [field_toNat, layoutShift_toNat]
  have := Bool.toNat_le immflag
  omega

theorem layoutNop_opcode (op : BitVec 4) (unused : BitVec 8) (nopf : BitVec 4) :
    (layoutNop op unused nopf).extractLsb' 12 4 = op := by
  apply BitVec.eq_of_toNat_eq
  rw [field_toNat, layoutNop_toNat]
  omega

/-! ### The other fields of a laid-out word -/

theorem layoutShift_colC (op a b : BitVec 4) (immflag : Bool) (imm3 : BitVec 3) :
    (layoutShift op a b immflag imm3).getLsbD 3 = immflag := by
  rw [colC_eq, layoutShift_toNat]
  cases immflag <;> simp <;> omega

theorem layoutNibbles_low (op a b c : BitVec 4) : (layoutNibbles op a b c).extractLsb' 0 4 = c := by
  apply BitVec.eq_of_toNat_eq
  rw [field_toNat, layoutNibbles_toNat]
  omega

theorem layoutNop_low (op : BitVec 4) (unused : BitVec 8) (nopf : BitVec 4) :
    (layoutNop op unused nopf).extractLsb' 0 4 = nopf := by
  apply BitVec.eq_of_toNat_eq
  rw [field_toNat, layoutNop_toNat]
  omega

/-- Every word is laid out from its four nibbles. -/
theorem eq_layoutNibbles (w : InstrWord) :
    w = layoutNibbles (w.extractLsb' 12 4) (w.extractLsb' 8 4) (w.extractLsb' 4 4) (w.extractLsb' 0 4) := by
  apply BitVec.eq_of_toNat_eq
  simp only [layoutNibbles_toNat, field_toNat]
  omega

/-! ### The masks of the opcode map (R59) -/

theorem layoutNibbles_and (a b c d a' b' c' d' : BitVec 4) :
    layoutNibbles a b c d &&& layoutNibbles a' b' c' d' = layoutNibbles (a &&& a') (b &&& b') (c &&& c') (d &&& d') := by
  refine (BitVec.and_append (w := 4 + 4 + 4) (v := 4)).trans ?_
  rw [BitVec.and_append, BitVec.and_append]
  rfl

/-- A word under a mask that keeps the opcode and part of the low nibble. -/
theorem and_opcodeMask (w : InstrWord) (n : BitVec 4) : w &&& layoutNibbles 15#4 0#4 0#4 n =
    layoutNibbles (w.extractLsb' 12 4) 0#4 0#4 (w.extractLsb' 0 4 &&& n) := by
  conv_lhs => rw [eq_layoutNibbles w, layoutNibbles_and]
  congr 1
  · exact BitVec.and_allOnes
  · exact BitVec.and_zero
  · exact BitVec.and_zero

theorem and_F000 (w : InstrWord) : w &&& 0xF000#16 = layoutNibbles (w.extractLsb' 12 4) 0#4 0#4 0#4 := by
  have h := and_opcodeMask w 0#4
  rwa [BitVec.and_zero] at h

theorem and_F00F (w : InstrWord) :
    w &&& 0xF00F#16 = layoutNibbles (w.extractLsb' 12 4) 0#4 0#4 (w.extractLsb' 0 4) := by
  have h := and_opcodeMask w 15#4
  rwa [show w.extractLsb' 0 4 &&& 15#4 = w.extractLsb' 0 4 from BitVec.and_allOnes] at h

theorem nibble_and_8 : ∀ n : BitVec 4, n &&& 8#4 = if n.toNat / 8 = 1 then 8#4 else 0#4 := by decide

theorem and_F008 (w : InstrWord) :
    w &&& 0xF008#16 = layoutNibbles (w.extractLsb' 12 4) 0#4 0#4 (if w.getLsbD 3 then 8#4 else 0#4) := by
  have h := and_opcodeMask w 8#4
  have hc : ((w.extractLsb' 0 4).toNat / 8 = 1) = (w.getLsbD 3 = true) := by
    rw [colC_eq, field_toNat, decide_eq_true_eq]
    simp only [eq_iff_iff]
    omega
  simp only [nibble_and_8, hc] at h
  exact h

/-! ### The bit order of this machine (R51) -/

@[simp] theorem documentOrder_params (w : InstrWord) : documentOrder Machine.params w = w := if_pos rfl

@[simp] theorem fieldValue_params {n : Nat} (f : BitVec n) : fieldValue Machine.params f = f := if_pos rfl

/-- The decoder of this machine, its fields at the slices of R52. -/
theorem decode_eq (w : InstrWord) : decode w =
    match w.extractLsb' 12 4 with
    | 0b0000#4 => .instr (.add (w.extractLsb' 8 4) (w.extractLsb' 4 4) (w.extractLsb' 0 4))
    | 0b0001#4 => .instr (.addi (w.extractLsb' 8 4) (w.extractLsb' 0 8))
    | 0b0010#4 => .instr (.sub (w.extractLsb' 8 4) (w.extractLsb' 4 4) (w.extractLsb' 0 4))
    | 0b0011#4 => .instr (.and (w.extractLsb' 8 4) (w.extractLsb' 4 4) (w.extractLsb' 0 4))
    | 0b0100#4 => .instr (.or (w.extractLsb' 8 4) (w.extractLsb' 4 4) (w.extractLsb' 0 4))
    | 0b0101#4 => .instr (.xor (w.extractLsb' 8 4) (w.extractLsb' 4 4) (w.extractLsb' 0 4))
    | 0b0110#4 => .instr (.loadi (w.extractLsb' 8 4) (w.extractLsb' 0 8))
    | 0b0111#4 => .instr (.load (w.extractLsb' 8 4) (w.extractLsb' 4 4) (w.extractLsb' 0 4))
    | 0b1000#4 => .instr (.store (w.extractLsb' 8 4) (w.extractLsb' 4 4) (w.extractLsb' 0 4))
    | 0b1001#4 => .instr (.jmp (w.extractLsb' 0 12))
    | 0b1010#4 => .instr (.brz (w.extractLsb' 0 12))
    | 0b1011#4 => .instr (.brnz (w.extractLsb' 0 12))
    | 0b1100#4 => .instr (.brns (w.extractLsb' 0 12))
    | 0b1101#4 => .instr (.shl (w.extractLsb' 8 4) (w.extractLsb' 4 4) (w.getLsbD 3) (w.extractLsb' 0 3))
    | 0b1110#4 => .instr (.shr (w.extractLsb' 8 4) (w.extractLsb' 4 4) (w.getLsbD 3) (w.extractLsb' 0 3))
    | _ =>
      match w.extractLsb' 0 4 with
      | 0b0000#4 => .instr (.cmp (w.extractLsb' 8 4) (w.extractLsb' 4 4))
      | 0b1111#4 => .instr (.nop (w.extractLsb' 4 8))
      | _ => .reserved w := rfl

theorem encode_eq (i : Instr) : encode i = encodeColumns Machine.params i := rfl

@[simp] theorem compareFields_params (w : InstrWord) :
    compareFields Machine.params w = (w.extractLsb' 8 4, w.extractLsb' 4 4) := rfl

end Sys2Proof
end

