-- ==== Sys2Proof/Laws/Flags.lean ====
section
/-! SUPPORT. What each flag computation says (40_arithmetic.md R80). -/

namespace Sys2Proof.Machine

variable {xlen : Nat}

@[simp] theorem zeroFlag_eq_true (r : Word xlen) : zeroFlag r = true ↔ r = 0 := by simp [zeroFlag]

theorem addCarry_eq_true_iff (a b : Word xlen) : addCarry a b = true ↔ 2 ^ xlen ≤ a.toNat + b.toNat := by
  simp [addCarry]

@[simp] theorem addCarry_eq_true (a b : Word) : addCarry a b = true ↔ 65536 ≤ a.toNat + b.toNat :=
  addCarry_eq_true_iff a b

@[simp] theorem subBorrow_eq_true (a b : Word xlen) : subBorrow a b = true ↔ a.toNat < b.toNat := by simp [subBorrow]

@[simp] theorem addiCarry_eq (a : Word xlen) (imm8 : BitVec 8) : addiCarry a imm8 = addCarry a (imm8.signExtend xlen) := rfl

@[simp] theorem shiftBigZero_eq (op : ShiftOp) (v : Word xlen) (amt : Nat) : shiftBigZero op v amt = 0 := rfl

/-- A result of zero and a borrow exclude each other. -/
theorem not_zeroFlag_and_subBorrow (a b : Word xlen) : ¬(zeroFlag (a - b) = true ∧ subBorrow a b = true) := by
  rw [zeroFlag_eq_true, subBorrow_eq_true]
  rintro ⟨h, hb⟩
  have hab : a = b := by simpa using congrArg (· + b) h
  exact absurd hb (by simp [hab])

end Sys2Proof.Machine
end

