-- ==== Sys2Proof/Laws/State.lean ====
section
/-! SUPPORT. What each update of the state does to each field, so that no later proof unfolds a record update. -/

namespace Sys2Proof.Machine

variable {xlen pcw : Nat} (cfg : Config xlen pcw) (s : State.Of xlen pcw)

/-! ### writeReg -/

@[simp] theorem writeReg_regs (r : Reg) (v : Word xlen) : (writeReg s r v).regs = s.regs.set r.toNat v (regIndex_lt r) := rfl
@[simp] theorem writeReg_pc (r : Reg) (v : Word xlen) : (writeReg s r v).pc = s.pc := rfl
@[simp] theorem writeReg_zFlag (r : Reg) (v : Word xlen) : (writeReg s r v).zFlag = s.zFlag := rfl
@[simp] theorem writeReg_sFlag (r : Reg) (v : Word xlen) : (writeReg s r v).sFlag = s.sFlag := rfl
@[simp] theorem writeReg_imem (r : Reg) (v : Word xlen) : (writeReg s r v).imem = s.imem := rfl
@[simp] theorem writeReg_dmem (r : Reg) (v : Word xlen) : (writeReg s r v).dmem = s.dmem := rfl

/-! ### setZero -/

@[simp] theorem setZero_regs (r : Word xlen) : (setZero s r).regs = s.regs := rfl
@[simp] theorem setZero_pc (r : Word xlen) : (setZero s r).pc = s.pc := rfl
@[simp] theorem setZero_zFlag (r : Word xlen) : (setZero s r).zFlag = zeroFlag r := rfl
@[simp] theorem setZero_sFlag (r : Word xlen) : (setZero s r).sFlag = s.sFlag := rfl
@[simp] theorem setZero_imem (r : Word xlen) : (setZero s r).imem = s.imem := rfl
@[simp] theorem setZero_dmem (r : Word xlen) : (setZero s r).dmem = s.dmem := rfl

/-! ### setSpecific -/

@[simp] theorem setSpecific_regs (b : Bool) : (setSpecific s b).regs = s.regs := rfl
@[simp] theorem setSpecific_pc (b : Bool) : (setSpecific s b).pc = s.pc := rfl
@[simp] theorem setSpecific_zFlag (b : Bool) : (setSpecific s b).zFlag = s.zFlag := rfl
@[simp] theorem setSpecific_sFlag (b : Bool) : (setSpecific s b).sFlag = b := rfl
@[simp] theorem setSpecific_imem (b : Bool) : (setSpecific s b).imem = s.imem := rfl
@[simp] theorem setSpecific_dmem (b : Bool) : (setSpecific s b).dmem = s.dmem := rfl

/-! ### advance -/

@[simp] theorem advance_regs : (advance cfg s).regs = s.regs := rfl
@[simp] theorem advance_pc : (advance cfg s).pc = s.pc + BitVec.ofNat pcw cfg.unitsPerInstr := rfl
@[simp] theorem advance_zFlag : (advance cfg s).zFlag = s.zFlag := rfl
@[simp] theorem advance_sFlag : (advance cfg s).sFlag = s.sFlag := rfl
@[simp] theorem advance_imem : (advance cfg s).imem = s.imem := rfl
@[simp] theorem advance_dmem : (advance cfg s).dmem = s.dmem := rfl

/-! ### jumpTo -/

@[simp] theorem jumpTo_regs (a : PC pcw) : (jumpTo s a).regs = s.regs := rfl
@[simp] theorem jumpTo_pc (a : PC pcw) : (jumpTo s a).pc = a := rfl
@[simp] theorem jumpTo_zFlag (a : PC pcw) : (jumpTo s a).zFlag = s.zFlag := rfl
@[simp] theorem jumpTo_sFlag (a : PC pcw) : (jumpTo s a).sFlag = s.sFlag := rfl
@[simp] theorem jumpTo_imem (a : PC pcw) : (jumpTo s a).imem = s.imem := rfl
@[simp] theorem jumpTo_dmem (a : PC pcw) : (jumpTo s a).dmem = s.dmem := rfl

/-! ### placeData -/

@[simp] theorem placeData_regs (a v : Word xlen) : (placeData s a v).regs = s.regs := rfl
@[simp] theorem placeData_pc (a v : Word xlen) : (placeData s a v).pc = s.pc := rfl
@[simp] theorem placeData_zFlag (a v : Word xlen) : (placeData s a v).zFlag = s.zFlag := rfl
@[simp] theorem placeData_sFlag (a v : Word xlen) : (placeData s a v).sFlag = s.sFlag := rfl
@[simp] theorem placeData_imem (a v : Word xlen) : (placeData s a v).imem = s.imem := rfl
@[simp] theorem placeData_dmem (a v : Word xlen) : (placeData s a v).dmem = s.dmem.insert a.toNat v := rfl

/-! ### placeInstr -/

@[simp] theorem placeInstr_regs (a : PC pcw) (w : InstrWord) : (placeInstr s a w).regs = s.regs := rfl
@[simp] theorem placeInstr_pc (a : PC pcw) (w : InstrWord) : (placeInstr s a w).pc = s.pc := rfl
@[simp] theorem placeInstr_zFlag (a : PC pcw) (w : InstrWord) : (placeInstr s a w).zFlag = s.zFlag := rfl
@[simp] theorem placeInstr_sFlag (a : PC pcw) (w : InstrWord) : (placeInstr s a w).sFlag = s.sFlag := rfl
@[simp] theorem placeInstr_imem (a : PC pcw) (w : InstrWord) : (placeInstr s a w).imem = s.imem.insert a.toNat w := rfl
@[simp] theorem placeInstr_dmem (a : PC pcw) (w : InstrWord) : (placeInstr s a w).dmem = s.dmem := rfl

/-! ### reset -/

@[simp] theorem resetWith_regs : (State.resetWith cfg).regs = Vector.replicate 16 0 := rfl
@[simp] theorem resetWith_pc : (State.resetWith cfg).pc = cfg.resetPc := rfl
@[simp] theorem resetWith_zFlag : (State.resetWith cfg).zFlag = false := rfl
@[simp] theorem resetWith_sFlag : (State.resetWith cfg).sFlag = false := rfl
@[simp] theorem resetWith_imem : (State.resetWith cfg).imem = [] := rfl
@[simp] theorem resetWith_dmem : (State.resetWith cfg).dmem = [] := rfl

@[simp] theorem reset_regs : State.reset.regs = Vector.replicate 16 0 := rfl
@[simp] theorem reset_pc : State.reset.pc = params.resetPc := rfl
@[simp] theorem reset_zFlag : State.reset.zFlag = false := rfl
@[simp] theorem reset_sFlag : State.reset.sFlag = false := rfl
@[simp] theorem reset_imem : State.reset.imem = [] := rfl
@[simp] theorem reset_dmem : State.reset.dmem = [] := rfl

end Sys2Proof.Machine
end

