-- ==== Sys2Proof/Laws/Memory.lean ====
section
/-! SUPPORT. The laws of a memory: a read after a write, and that every write and every operation over memory keeps the
canonical form. -/

namespace Sys2Proof.Machine

variable {width xlen pcw : Nat}

@[simp] theorem Memory.lookup_nil (a : Nat) : Memory.lookup (width := width) [] a = none := rfl

@[simp] theorem Memory.lookup_insert_self (m : Memory width) (a : Nat) (v : BitVec width) :
    (m.insert a v).lookup a = some v := by
  induction m with
  | nil => simp [Memory.insert, Memory.lookup]
  | cons x m ih =>
    obtain ⟨b, w⟩ := x
    unfold Memory.insert
    split
    · simp [Memory.lookup]
    · split <;> simp_all [Memory.lookup]

theorem Memory.lookup_insert_ne (m : Memory width) {a b : Nat} (v : BitVec width) (h : b ≠ a) :
    (m.insert a v).lookup b = m.lookup b := by
  induction m with
  | nil => simp [Memory.insert, Memory.lookup, h]
  | cons x m ih =>
    obtain ⟨c, w⟩ := x
    unfold Memory.insert
    split
    · simp [Memory.lookup, h]
    · split <;> simp_all [Memory.lookup]

/-- Whatever is listed after a write was listed before or is the cell written. -/
theorem Memory.mem_insert {m : Memory width} {a : Nat} {v : BitVec width} {x : Nat × BitVec width}
    (h : x ∈ m.insert a v) : x = (a, v) ∨ x ∈ m := by
  induction m with
  | nil => simpa [Memory.insert] using h
  | cons y m ih =>
    obtain ⟨b, w⟩ := y
    unfold Memory.insert at h
    split at h
    · simpa using h
    · split at h
      · rcases List.mem_cons.1 h with h | h <;> simp [h]
      · rcases List.mem_cons.1 h with h | h
        · simp [h]
        · rcases ih h with h | h <;> simp [h]

/-- A write at an address in range keeps the canonical form. -/
theorem Memory.wf_insert {m : Memory width} {n : Nat} (hm : m.wf n) {a : Nat} (ha : a < 2 ^ n) (v : BitVec width) :
    (m.insert a v).wf n := by
  refine ⟨?_, fun x hx => ?_⟩
  · obtain ⟨hs, -⟩ := hm
    induction m with
    | nil => simp [Memory.insert]
    | cons y m ih =>
      obtain ⟨b, w⟩ := y
      obtain ⟨hb, ht⟩ := List.pairwise_cons.1 hs
      unfold Memory.insert
      split
      · refine List.pairwise_cons.2 ⟨fun x hx => ?_, hs⟩
        rcases List.mem_cons.1 hx with rfl | hx
        · assumption
        · exact Nat.lt_trans ‹a < b› (hb x hx)
      · split
        · subst_vars
          exact List.pairwise_cons.2 ⟨hb, ht⟩
        · refine List.pairwise_cons.2 ⟨fun x hx => ?_, ih ht⟩
          rcases Memory.mem_insert hx with rfl | hx
          · show b < a
            omega
          · exact hb x hx
  · rcases Memory.mem_insert hx with rfl | hx
    · exact ha
    · exact hm.2 x hx

theorem Memory.wf_nil (n : Nat) : Memory.wf (width := width) [] n := by simp [Memory.wf]

/-! ### The operations over the state's memories -/

theorem placeData_wf {s : State.Of xlen pcw} (h : s.dmem.wf xlen) (a v : Word xlen) : (placeData s a v).dmem.wf xlen :=
  Memory.wf_insert h a.isLt v

theorem placeInstr_wf {s : State.Of xlen pcw} (h : s.imem.wf pcw) (a : PC pcw) (w : InstrWord) : (placeInstr s a w).imem.wf pcw :=
  Memory.wf_insert h a.isLt w

theorem loadImageFrom_wf {image : List InstrWord} {a : PC pcw} {s : State.Of xlen pcw} (h : s.imem.wf pcw) :
    (loadImageFrom image a s).imem.wf pcw := by
  induction image generalizing a s with
  | nil => exact h
  | cons w rest ih => exact ih (placeInstr_wf h a w)

theorem loadImageFrom_dmem {image : List InstrWord} {a : PC pcw} {s : State.Of xlen pcw} :
    (loadImageFrom image a s).dmem = s.dmem := by
  induction image generalizing a s with
  | nil => rfl
  | cons w rest ih => exact ih

theorem loadImage_wf {image : List InstrWord} {s : State} (h : s.imem.wf 16) : (loadImage image s).imem.wf 16 :=
  loadImageFrom_wf h

theorem reset_imem_wf : State.reset.imem.wf 16 := Memory.wf_nil 16

theorem reset_dmem_wf : State.reset.dmem.wf 16 := Memory.wf_nil 16

end Sys2Proof.Machine
end

