-- ==== Sys2Proof/Laws/Ops.lean ====
section
/-! SUPPORT. What the named operations answer: registers, data words, instruction words, operands. -/

namespace Sys2Proof.Machine

variable {xlen pcw : Nat} (cfg : Config xlen pcw) (s : State.Of xlen pcw)

/-! ### Registers -/

@[simp] theorem readReg_writeReg_self (r : Reg) (v : Word xlen) : readReg (writeReg s r v) r = v := by
  simp [readReg]

theorem readReg_writeReg_ne {r r' : Reg} (v : Word xlen) (h : r' ≠ r) :
    readReg (writeReg s r v) r' = readReg s r' := by
  have : r.toNat ≠ r'.toNat := fun e => h (BitVec.eq_of_toNat_eq e.symm)
  simp [readReg, this]

theorem readReg_writeReg (r r' : Reg) (v : Word xlen) :
    readReg (writeReg s r v) r' = if r' = r then v else readReg s r' := by
  split
  · subst_vars; simp
  · exact readReg_writeReg_ne s v ‹_›

@[simp] theorem readReg_setZero (v : Word xlen) (r : Reg) : readReg (setZero s v) r = readReg s r := rfl
@[simp] theorem readReg_setSpecific (b : Bool) (r : Reg) : readReg (setSpecific s b) r = readReg s r := rfl
@[simp] theorem readReg_advance (r : Reg) : readReg (advance cfg s) r = readReg s r := rfl
@[simp] theorem readReg_jumpTo (a : PC pcw) (r : Reg) : readReg (jumpTo s a) r = readReg s r := rfl
@[simp] theorem readReg_placeData (a v : Word xlen) (r : Reg) : readReg (placeData s a v) r = readReg s r := rfl
@[simp] theorem readReg_placeInstr (a : PC pcw) (w : InstrWord) (r : Reg) :
    readReg (placeInstr s a w) r = readReg s r := rfl

theorem readReg_reset (r : Reg) : readReg State.reset r = 0 := by simp [readReg]

/-! ### Data words -/

@[simp] theorem dataWord_writeReg (r : Reg) (v a : Word xlen) : dataWord cfg (writeReg s r v) a = dataWord cfg s a := rfl
@[simp] theorem dataWord_setZero (v a : Word xlen) : dataWord cfg (setZero s v) a = dataWord cfg s a := rfl
@[simp] theorem dataWord_setSpecific (b : Bool) (a : Word xlen) : dataWord cfg (setSpecific s b) a = dataWord cfg s a := rfl
@[simp] theorem dataWord_advance (a : Word xlen) : dataWord cfg (advance cfg s) a = dataWord cfg s a := rfl
@[simp] theorem dataWord_jumpTo (p : PC pcw) (a : Word xlen) : dataWord cfg (jumpTo s p) a = dataWord cfg s a := rfl
@[simp] theorem dataWord_placeInstr (p : PC pcw) (w : InstrWord) (a : Word xlen) :
    dataWord cfg (placeInstr s p w) a = dataWord cfg s a := rfl

@[simp] theorem dataWord_placeData_self (a v : Word xlen) : dataWord cfg (placeData s a v) a = v := by
  simp [dataWord]

theorem dataWord_placeData_ne {a b : Word xlen} (v : Word xlen) (h : b ≠ a) :
    dataWord cfg (placeData s a v) b = dataWord cfg s b := by
  have : b.toNat ≠ a.toNat := fun e => h (BitVec.eq_of_toNat_eq e)
  simp [dataWord, Memory.lookup_insert_ne _ _ this]

/-! ### Instruction words -/

@[simp] theorem instrAt_writeReg (r : Reg) (v : Word xlen) (a : PC pcw) :
    instrAt cfg (writeReg s r v) a = instrAt cfg s a := rfl
@[simp] theorem instrAt_setZero (v : Word xlen) (a : PC pcw) : instrAt cfg (setZero s v) a = instrAt cfg s a := rfl
@[simp] theorem instrAt_setSpecific (b : Bool) (a : PC pcw) : instrAt cfg (setSpecific s b) a = instrAt cfg s a := rfl
@[simp] theorem instrAt_advance (a : PC pcw) : instrAt cfg (advance cfg s) a = instrAt cfg s a := rfl
@[simp] theorem instrAt_jumpTo (p a : PC pcw) : instrAt cfg (jumpTo s p) a = instrAt cfg s a := rfl

/-- A pc that stands inside an instruction fetches no word. -/
theorem instrAt_misaligned {a : PC pcw} (h : a.toNat % cfg.unitsPerInstr ≠ 0) : instrAt cfg s a = none :=
  if_neg fun h' => h h'.1

/-! ### Shifts by less than the width -/

theorem shiftLeft_of_lt {v : Word xlen} {amt : Nat} (h : amt < xlen) : shiftLeft cfg v amt = v <<< amt := if_pos h

theorem shiftRight_of_lt {v : Word xlen} {amt : Nat} (h : amt < xlen) : shiftRight cfg v amt = v >>> amt := if_pos h

/-! ### This machine: its memories and its operands -/

theorem advance_params_pc (s : State) : (advance params s).pc = s.pc + 1 := rfl

/-- Every data word exists under the default DMEM_WORDS (R22, R35). -/
@[simp] theorem readData_params (s : State) (a : Word) : readData params s a = some (dataWord params s a) :=
  if_pos a.isLt

@[simp] theorem writeData_params (s : State) (a v : Word) : writeData params s a v = some (placeData s a v) :=
  if_pos a.isLt

/-- Under the defaults fetch reads IMEM at pc and nothing else (R21, R40). -/
theorem instrAt_params (s : State) (a : PC) : instrAt params s a = s.imem.lookup a.toNat := by
  have := a.isLt
  simp_all [instrAt, programWord, Nat.mod_one]

@[simp] theorem instrAt_placeData (s : State) (a v : Word) (p : PC) :
    instrAt params (placeData s a v) p = instrAt params s p := by
  simp [instrAt_params]

@[simp] theorem instrAt_placeInstr_self (s : State) (a : PC) (w : InstrWord) :
    instrAt params (placeInstr s a w) a = some w := by
  simp [instrAt_params]

theorem instrAt_placeInstr_ne (s : State) {a b : PC} (w : InstrWord) (h : b ≠ a) :
    instrAt params (placeInstr s a w) b = instrAt params s b := by
  have : b.toNat ≠ a.toNat := fun e => h (BitVec.eq_of_toNat_eq e)
  simp [instrAt_params, Memory.lookup_insert_ne _ _ this]

theorem memOffset_params (off4 : BitVec 4) : memOffset params off4 = off4.setWidth 16 := rfl

theorem branchOffset_params (off12 : BitVec 12) : branchOffset params off12 = off12.signExtend 16 := rfl

theorem target_params (pc offset : PC) : target params pc offset = pc + offset := by simp [target]

end Sys2Proof.Machine
end

