-- ==== Sys2Proof/Laws/Exec.lean ====
section
/-! SUPPORT. What each instruction answers, as one equation over the named operations, and what a step can do: the lemmas
that proofs cite instead of unfolding `exec` and `step`. -/

namespace Sys2Proof.Machine

variable {xlen pcw : Nat} (cfg : Config xlen pcw) (s : State.Of xlen pcw)

/-! ### The shared end of the instructions that write a result -/

@[simp] theorem finishResult_pc (rd : Reg) (r : Word xlen) :
    (finishResult cfg s rd r).pc = s.pc + BitVec.ofNat pcw cfg.unitsPerInstr := rfl
@[simp] theorem finishResult_zFlag (rd : Reg) (r : Word xlen) : (finishResult cfg s rd r).zFlag = zeroFlag r := rfl
@[simp] theorem finishResult_sFlag (rd : Reg) (r : Word xlen) : (finishResult cfg s rd r).sFlag = s.sFlag := rfl
@[simp] theorem finishResult_imem (rd : Reg) (r : Word xlen) : (finishResult cfg s rd r).imem = s.imem := rfl
@[simp] theorem finishResult_dmem (rd : Reg) (r : Word xlen) : (finishResult cfg s rd r).dmem = s.dmem := rfl

@[simp] theorem readReg_finishResult (rd r' : Reg) (r : Word xlen) :
    readReg (finishResult cfg s rd r) r' = if r' = rd then r else readReg s r' := by
  simp [finishResult, readReg_writeReg]

@[simp] theorem dataWord_finishResult (rd : Reg) (r a : Word xlen) :
    dataWord cfg (finishResult cfg s rd r) a = dataWord cfg s a := rfl

@[simp] theorem instrAt_finishResult (rd : Reg) (r : Word xlen) (a : PC pcw) :
    instrAt cfg (finishResult cfg s rd r) a = instrAt cfg s a := rfl

theorem finishResult_params_pc (s : State) (rd : Reg) (r : Word) : (finishResult params s rd r).pc = s.pc + 1 := rfl

/-! ### The instructions -/

theorem exec_add (s : State) (rd rs1 rs2 : Reg) : exec (.add rd rs1 rs2) s =
    .next (finishResult params (setSpecific s (addCarry (readReg s rs1) (readReg s rs2))) rd (readReg s rs1 + readReg s rs2)) :=
  rfl

theorem exec_addi (s : State) (rd : Reg) (imm8 : BitVec 8) : exec (.addi rd imm8) s =
    .next (finishResult params (setSpecific s (addiCarry (readReg s rd) imm8)) rd (readReg s rd + immOperand imm8)) :=
  rfl

theorem exec_sub (s : State) (rd rs1 rs2 : Reg) : exec (.sub rd rs1 rs2) s =
    .next (finishResult params (setSpecific s (subBorrow (readReg s rs1) (readReg s rs2))) rd (readReg s rs1 - readReg s rs2)) :=
  rfl

theorem exec_and (s : State) (rd rs1 rs2 : Reg) : exec (.and rd rs1 rs2) s =
    .next (finishResult params s rd (readReg s rs1 &&& readReg s rs2)) := rfl

theorem exec_or (s : State) (rd rs1 rs2 : Reg) : exec (.or rd rs1 rs2) s =
    .next (finishResult params s rd (readReg s rs1 ||| readReg s rs2)) := rfl

theorem exec_xor (s : State) (rd rs1 rs2 : Reg) : exec (.xor rd rs1 rs2) s =
    .next (finishResult params s rd (readReg s rs1 ^^^ readReg s rs2)) := rfl

theorem exec_loadi (s : State) (rd : Reg) (imm8 : BitVec 8) : exec (.loadi rd imm8) s =
    .next (advance params (writeReg s rd (immOperand imm8))) := rfl

theorem exec_load (s : State) (rd rs1 : Reg) (off4 : BitVec 4) : exec (.load rd rs1 off4) s =
    .next (advance params (writeReg s rd (dataWord params s (effectiveAddress params s rs1 off4)))) := by
  simp [exec, execLoad, loadWith]

theorem exec_store (s : State) (rs2 rs1 : Reg) (off4 : BitVec 4) : exec (.store rs2 rs1 off4) s =
    .next (advance params (placeData s (effectiveAddress params s rs1 off4) (readReg s rs2))) := by
  simp [exec, execStore, storeWith]

theorem exec_jmp (s : State) (off12 : BitVec 12) : exec (.jmp off12) s =
    .next (jumpTo s (target params s.pc (jumpOffset off12))) := rfl

theorem exec_brz (s : State) (off12 : BitVec 12) : exec (.brz off12) s =
    .next (if s.zFlag then jumpTo s (target params s.pc (branchOffset params off12)) else advance params s) := by
  cases h : s.zFlag <;> simp [exec, execBrz, brzWith, branchWith, h]

theorem exec_brnz (s : State) (off12 : BitVec 12) : exec (.brnz off12) s =
    .next (if s.zFlag then advance params s else jumpTo s (target params s.pc (branchOffset params off12))) := by
  cases h : s.zFlag <;> simp [exec, execBrnz, brnzWith, branchWith, h]

theorem exec_brns (s : State) (off12 : BitVec 12) : exec (.brns off12) s =
    .next (if s.sFlag then advance params s else jumpTo s (target params s.pc (branchOffset params off12))) := by
  cases h : s.sFlag <;> simp [exec, execBrns, brnsWith, branchWith, h]

theorem exec_shl (s : State) (rd rs : Reg) (immflag : Bool) (imm3 : BitVec 3) : exec (.shl rd rs immflag imm3) s =
    .next (finishResult params s rd (shiftLeft params (readReg s rd) (shiftAmount s rs immflag imm3))) := rfl

theorem exec_shr (s : State) (rd rs : Reg) (immflag : Bool) (imm3 : BitVec 3) : exec (.shr rd rs immflag imm3) s =
    .next (finishResult params s rd (shiftRight params (readReg s rd) (shiftAmount s rs immflag imm3))) := rfl

theorem exec_cmp (s : State) (rs1 rs2 : Reg) : exec (.cmp rs1 rs2) s =
    .next (advance params (setZero (setSpecific s (subBorrow (readReg s rs1) (readReg s rs2))) (readReg s rs1 - readReg s rs2))) :=
  rfl

theorem exec_nop (s : State) (unused : BitVec 8) : exec (.nop unused) s = .next (advance params s) := rfl

/-! ### The step -/

theorem step_of_unloaded {s : State} (h : instrAt params s s.pc = none) : step s = .fault (.fetchUnloaded s.pc.toNat) := by
  simp [step, h]

theorem step_of_reserved {s : State} {w w' : InstrWord} (h : instrAt params s s.pc = some w)
    (hd : decode w = .reserved w') : step s = .fault (.reservedEncoding w' s.pc.toNat) := by
  simp [step, h, hd]

/-- A step answers a next state only by running the instruction that the fetched word decodes to. -/
theorem step_next_cases {s t : State} (h : step s = .next t) :
    ∃ w i, instrAt params s s.pc = some w ∧ decode w = .instr i ∧ exec i s = .next t := by
  unfold step at h
  split at h
  · cases h
  · rename_i w hw
    split at h
    · cases h
    · exact ⟨w, _, hw, ‹_›, h⟩

end Sys2Proof.Machine
end

