-- ==== Sys2Proof/Laws/Parametric.lean ====
section
/-! SUPPORT. The machine under any parameters is this machine under its own. -/

namespace Sys2Proof.Machine

theorem execWith_params (i : Instr) (s : State) : execWith params i s = exec i s := by
  cases i <;> rfl

theorem stepWith_params (s : State) : stepWith params s = step s := by
  simp only [stepWith, step, execWith_params]
  rfl

end Sys2Proof.Machine
end

