-- ==== Sys2Proof/Laws/PerInstr.lean ====
section
/-! SUPPORT. Per instruction: the word of every instruction meets the match and mask that the opcode map gives its row
(30_encoding.md R59), whatever its operands. -/

namespace Sys2Proof.Laws.OpcodeMap

/-- The row's match and mask (R59; for shl and shr, those of the form the Imm? bit selects). -/
def matchMask : Instr → BitVec 16 × BitVec 16
  | .add _ _ _ => (0x0000#16, 0xF000#16)
  | .addi _ _ => (0x1000#16, 0xF000#16)
  | .sub _ _ _ => (0x2000#16, 0xF000#16)
  | .and _ _ _ => (0x3000#16, 0xF000#16)
  | .or _ _ _ => (0x4000#16, 0xF000#16)
  | .xor _ _ _ => (0x5000#16, 0xF000#16)
  | .loadi _ _ => (0x6000#16, 0xF000#16)
  | .load _ _ _ => (0x7000#16, 0xF000#16)
  | .store _ _ _ => (0x8000#16, 0xF000#16)
  | .jmp _ => (0x9000#16, 0xF000#16)
  | .brz _ => (0xA000#16, 0xF000#16)
  | .brnz _ => (0xB000#16, 0xF000#16)
  | .brns _ => (0xC000#16, 0xF000#16)
  | .shl _ _ immflag _ => (if immflag then 0xD008#16 else 0xD000#16, 0xF008#16)
  | .shr _ _ immflag _ => (if immflag then 0xE008#16 else 0xE000#16, 0xF008#16)
  | .cmp _ _ => (0xF000#16, 0xF00F#16)
  | .nop _ => (0xF00F#16, 0xF00F#16)

/-- The encoded word under the row's mask is the row's match. -/
def Statement (i : Instr) : Prop := encode i &&& (matchMask i).2 = (matchMask i).1

/-- A row whose mask is the opcode alone. -/
theorem of_opcode {i : Instr} {op : BitVec 4} (h : (encode i).extractLsb' 12 4 = op)
    (hm : matchMask i = (layoutNibbles op 0#4 0#4 0#4, 0xF000#16)) : Statement i := by
  rw [Statement, hm, and_F000, h]

/-- A shift: the mask is the opcode and the Imm? bit. -/
theorem of_shift {i : Instr} {op : BitVec 4} {immflag : Bool} (h : (encode i).extractLsb' 12 4 = op)
    (hc : (encode i).getLsbD 3 = immflag)
    (hm : matchMask i = (layoutNibbles op 0#4 0#4 (if immflag then 8#4 else 0#4), 0xF008#16)) : Statement i := by
  rw [Statement, hm, and_F008, h, hc]

/-- A compare word: the mask is the opcode and the Nop? field. -/
theorem of_compare {i : Instr} {op nopf : BitVec 4} (h : (encode i).extractLsb' 12 4 = op)
    (hl : (encode i).extractLsb' 0 4 = nopf)
    (hm : matchMask i = (layoutNibbles op 0#4 0#4 nopf, 0xF00F#16)) : Statement i := by
  rw [Statement, hm, and_F00F, h, hl]

theorem add (rd rs1 rs2 : Reg) : Statement (.add rd rs1 rs2) :=
  of_opcode (layoutNibbles_opcode _ _ _ _) rfl

theorem addi (rd : Reg) (imm8 : BitVec 8) : Statement (.addi rd imm8) :=
  of_opcode (layoutImm8_opcode _ _ _) rfl

theorem sub (rd rs1 rs2 : Reg) : Statement (.sub rd rs1 rs2) :=
  of_opcode (layoutNibbles_opcode _ _ _ _) rfl

theorem and (rd rs1 rs2 : Reg) : Statement (.and rd rs1 rs2) :=
  of_opcode (layoutNibbles_opcode _ _ _ _) rfl

theorem or (rd rs1 rs2 : Reg) : Statement (.or rd rs1 rs2) :=
  of_opcode (layoutNibbles_opcode _ _ _ _) rfl

theorem xor (rd rs1 rs2 : Reg) : Statement (.xor rd rs1 rs2) :=
  of_opcode (layoutNibbles_opcode _ _ _ _) rfl

theorem loadi (rd : Reg) (imm8 : BitVec 8) : Statement (.loadi rd imm8) :=
  of_opcode (layoutImm8_opcode _ _ _) rfl

theorem load (rd rs1 : Reg) (off4 : BitVec 4) : Statement (.load rd rs1 off4) :=
  of_opcode (layoutNibbles_opcode _ _ _ _) rfl

theorem store (rs2 rs1 : Reg) (off4 : BitVec 4) : Statement (.store rs2 rs1 off4) :=
  of_opcode (layoutNibbles_opcode _ _ _ _) rfl

theorem jmp (off12 : BitVec 12) : Statement (.jmp off12) :=
  of_opcode (layoutOff12_opcode _ _) rfl

theorem brz (off12 : BitVec 12) : Statement (.brz off12) :=
  of_opcode (layoutOff12_opcode _ _) rfl

theorem brnz (off12 : BitVec 12) : Statement (.brnz off12) :=
  of_opcode (layoutOff12_opcode _ _) rfl

theorem brns (off12 : BitVec 12) : Statement (.brns off12) :=
  of_opcode (layoutOff12_opcode _ _) rfl

theorem shl (rd rs : Reg) (immflag : Bool) (imm3 : BitVec 3) : Statement (.shl rd rs immflag imm3) := by
  refine of_shift (layoutShift_opcode _ _ _ _ _) (layoutShift_colC _ _ _ _ _) ?_
  cases immflag <;> rfl

theorem shr (rd rs : Reg) (immflag : Bool) (imm3 : BitVec 3) : Statement (.shr rd rs immflag imm3) := by
  refine of_shift (layoutShift_opcode _ _ _ _ _) (layoutShift_colC _ _ _ _ _) ?_
  cases immflag <;> rfl

theorem cmp (rs1 rs2 : Reg) : Statement (.cmp rs1 rs2) :=
  of_compare (layoutNibbles_opcode _ _ _ _) (layoutNibbles_low _ _ _ _) rfl

theorem nop (unused : BitVec 8) : Statement (.nop unused) :=
  of_compare (layoutNop_opcode _ _ _) (layoutNop_low _ _ _) rfl

end Sys2Proof.Laws.OpcodeMap
end

