-- ==== Sys2Proof/Laws/Safety.lean ====
section
/-! SUPPORT. The terms of Safety.lean over the named operations. -/

namespace Sys2Proof.Safety

open Sys2Proof.Machine

variable (s : State)

theorem flagValue_inj {a b : Bool} : flagValue a = flagValue b ↔ a = b := by
  cases a <;> cases b <;> decide

@[simp] theorem valueAt_reg (r : Reg) : valueAt s (.reg r) = readReg s r := rfl
@[simp] theorem valueAt_zFlag : valueAt s .zFlag = flagValue s.zFlag := rfl
@[simp] theorem valueAt_sFlag : valueAt s .sFlag = flagValue s.sFlag := rfl
@[simp] theorem valueAt_data (a : Word) : valueAt s (.data a) = dataWord params s a := rfl

/-- Moving pc changes no place. -/
@[simp] theorem valueAt_advance (l : Location) : valueAt (advance params s) l = valueAt s l := by cases l <;> rfl
@[simp] theorem valueAt_jumpTo (p : PC) (l : Location) : valueAt (jumpTo s p) l = valueAt s l := by cases l <;> rfl

/-- A branch, taken or not, changes no place and no word of the program. -/
theorem valueAt_branch (c : Prop) [Decidable c] (p q : State) (l : Location)
    (hp : valueAt p l = valueAt s l) (hq : valueAt q l = valueAt s l) :
    valueAt (if c then p else q) l = valueAt s l := by
  split <;> assumption

/-- The effective address depends on the base register alone. -/
theorem effectiveAddress_congr {s t : State} {base : Reg} (h : readReg s base = readReg t base) (off4 : BitVec 4) :
    effectiveAddress params s base off4 = effectiveAddress params t base off4 := by
  simp [effectiveAddress, h]

end Sys2Proof.Safety
end

