-- ==== Sys2Proof/Tests/Slice0.lean ====
section
/-! SUPPORT. Tests. Expected results come from spec/95_test_vectors.md (the section is named at each group) and from the
patterns of 30_encoding.md; every execution test is one step of a word placed at pc. The witnesses at the end show that the
hypotheses of the obligations can be met. -/

namespace Sys2Proof.Tests

open Sys2Proof.Machine Sys2Proof.Safety

/-- The reset state with some registers set. -/
def withRegs : List (Reg × Word) → State
  | [] => State.reset
  | (r, v) :: rest => writeReg (withRegs rest) r v

/-- A state with its flags set. -/
def withFlags (s : State) (z o : Bool) : State := { s with zFlag := z, sFlag := o }

/-- One step of a word placed at pc answers a next state with a property. -/
def runs (w : Nat) (s : State) (p : State → Bool) : Bool :=
  match step (s.withFetchWord 16 w) with
  | .next t => p t
  | .fault _ => false
  | .refused _ => false

/-- One step of a word placed at pc stops with a fault. -/
def stops (w : Nat) (s : State) (f : Fault) : Bool :=
  match step (s.withFetchWord 16 w) with
  | .next _ => false
  | .fault g => decide (g = f)
  | .refused _ => false

/-! ### Decoding: words written out column by column from the patterns of R59 (fields as in section 2.9) -/

theorem test_decode_add : decode 0b0000101010111100#16 = .instr (.add 10 11 12) := by decide
theorem test_decode_addi : decode 0b0001111110000000#16 = .instr (.addi 15 0x80) := by decide
theorem test_decode_sub : decode 0b0010111111101101#16 = .instr (.sub 15 14 13) := by decide
theorem test_decode_and : decode 0b0011000000000001#16 = .instr (.and 0 0 1) := by decide
theorem test_decode_or : decode 0b0100001000010000#16 = .instr (.or 2 1 0) := by decide
theorem test_decode_xor : decode 0b0101111111111111#16 = .instr (.xor 15 15 15) := by decide
theorem test_decode_loadi : decode 0b0110101001111111#16 = .instr (.loadi 10 0x7F) := by decide
theorem test_decode_load : decode 0b0111001111001001#16 = .instr (.load 3 12 9) := by decide
theorem test_decode_store : decode 0b1000110000111001#16 = .instr (.store 12 3 9) := by decide
theorem test_decode_jmp : decode 0b1001100000000000#16 = .instr (.jmp 0x800) := by decide
theorem test_decode_brz : decode 0b1010011111111111#16 = .instr (.brz 0x7FF) := by decide
theorem test_decode_brnz : decode 0b1011111111111111#16 = .instr (.brnz 0xFFF) := by decide
theorem test_decode_brns : decode 0b1100000000000001#16 = .instr (.brns 1) := by decide
theorem test_decode_shl_register : decode 0b1101010110100000#16 = .instr (.shl 5 10 false 0) := by decide
theorem test_decode_shl_immediate : decode 0b1101010100001101#16 = .instr (.shl 5 0 true 5) := by decide
theorem test_decode_shr_immediate : decode 0b1110100110001111#16 = .instr (.shr 9 8 true 7) := by decide
theorem test_decode_shr_register : decode 0b1110100110000111#16 = .instr (.shr 9 8 false 7) := by decide
theorem test_decode_cmp : decode 0b1111001111100000#16 = .instr (.cmp 3 14) := by decide
theorem test_decode_nop : decode 0b1111000000001111#16 = .instr (.nop 0) := by decide
theorem test_decode_nop_ignored_bits : decode 0b1111000100101111#16 = .instr (.nop 0x12) := by decide
theorem test_decode_reserved : decode 0b1111001111100101#16 = .reserved 0xF3E5#16 := by decide

/-- The words of the assembler's table (R66) for `shl rd, n`, `store` and `nop`. -/
theorem test_encode : encode (.shl 1 0 true 4) = 0xD10C#16 ∧ encode (.store 4 1 15) = 0x841F#16 ∧
    encode (.nop 0) = 0xF00F#16 := by decide

theorem test_table_word : decodeTableWord 16 0x7213 = some (.load 2 1 3) ∧ decodeTableWord 16 0xF001 = none := by decide

/-- With column 0 as the least significant bit (D1 reversed), the columns of `addi r1, -1` stand in the opposite order. -/
theorem test_decode_other_bit_order :
    decodeWith { params with bit0IsMsb := false } 0b1111111100011000#16 = .instr (.addi 1 0xFF) := by decide

/-! ### Well-formedness: one ill-formed term for each check -/

theorem test_wf_shl_immediate_with_rs : wellFormed (.shl 1 15 true 3) = false := by decide
theorem test_wf_shl_register_with_imm : wellFormed (.shl 1 2 false 7) = false := by decide
theorem test_wf_shr_immediate_with_rs : wellFormed (.shr 1 15 true 3) = false := by decide
theorem test_wf_shr_register_with_imm : wellFormed (.shr 1 2 false 7) = false := by decide
theorem test_wf_nop_with_fields : wellFormed (.nop 0x12) = false := by decide
theorem test_wf_accepts : wellFormed (.shl 1 2 false 0) = true ∧ wellFormed (.shr 1 0 true 7) = true ∧
    wellFormed (.nop 0) = true ∧ wellFormed (.jmp 0xFFF) = true := by decide

/-! ### Arithmetic (sections 2.1 to 2.4) -/

theorem test_add_carry : runs 0x0312 (withRegs [(1, 0xFFFF), (2, 1)])
    (fun t => readReg t 3 == 0 && t.zFlag && t.sFlag && t.pc == 1) = true := by decide
theorem test_add_own_source : runs 0x0111 (withRegs [(1, 0x4001)])
    (fun t => readReg t 1 == 0x8002 && !t.zFlag && !t.sFlag) = true := by decide
theorem test_addi_negative : runs 0x11FF (withRegs [(1, 5)])
    (fun t => readReg t 1 == 4 && !t.zFlag && t.sFlag) = true := by decide
theorem test_addi_below_zero : runs 0x1180 (withRegs [(1, 0x007F)])
    (fun t => readReg t 1 == 0xFFFF && !t.zFlag && !t.sFlag) = true := by decide
theorem test_sub_borrow : runs 0x2312 (withRegs [(1, 3), (2, 5)])
    (fun t => readReg t 3 == 0xFFFE && !t.zFlag && t.sFlag) = true := by decide
theorem test_sub_operand_order : runs 0x2121 (withRegs [(1, 1), (2, 0)])
    (fun t => readReg t 1 == 0xFFFF && !t.zFlag && t.sFlag) = true := by decide
theorem test_and_keeps_s : runs 0x3312 (withFlags (withRegs [(1, 0x0FFF), (2, 0xF00F)]) true true)
    (fun t => readReg t 3 == 0x000F && !t.zFlag && t.sFlag) = true := by decide
theorem test_and_zero : runs 0x3312 (withRegs [(1, 0xF0F0), (2, 0x0F0F)])
    (fun t => readReg t 3 == 0 && t.zFlag && !t.sFlag) = true := by decide
theorem test_or : runs 0x4312 (withFlags (withRegs [(1, 0x0F00), (2, 0x00F0)]) true true)
    (fun t => readReg t 3 == 0x0FF0 && !t.zFlag && t.sFlag) = true := by decide
theorem test_xor : runs 0x5312 (withRegs [(1, 0xFF00), (2, 0x0FF0)])
    (fun t => readReg t 3 == 0xF0F0 && !t.zFlag && !t.sFlag) = true := by decide
theorem test_xor_self : runs 0x5111 (withFlags (withRegs [(1, 0x1234)]) false true)
    (fun t => readReg t 1 == 0 && t.zFlag && t.sFlag) = true := by decide

/-! ### Memory (section 2.5) -/

theorem test_loadi_negative : runs 0x6780 (withFlags State.reset true false)
    (fun t => readReg t 7 == 0xFF80 && t.zFlag && !t.sFlag) = true := by decide
theorem test_loadi_zero_keeps_z : runs 0x6700 (withRegs [(7, 9)])
    (fun t => readReg t 7 == 0 && !t.zFlag) = true := by decide
theorem test_load_offset_unsigned : runs 0x7218 (placeData (placeData (withRegs [(1, 0x0010)]) 0x0008 0x2222) 0x0018 0x1111)
    (fun t => readReg t 2 == 0x1111) = true := by decide
theorem test_load_own_base : runs 0x7111 (placeData (withRegs [(1, 0x0010)]) 0x0011 0x7777)
    (fun t => readReg t 1 == 0x7777) = true := by decide
theorem test_store_wraps : runs 0x8211 (withRegs [(1, 0xFFFF), (2, 0x1234)])
    (fun t => dataWord params t 0 == 0x1234 && readReg t 1 == 0xFFFF) = true := by decide
theorem test_store_field_order : runs 0x841F (withRegs [(1, 0x0100), (4, 0xBEEF)])
    (fun t => dataWord params t 0x010F == 0xBEEF) = true := by decide

/-! ### Control flow (section 2.6) -/

theorem test_jmp_back_wraps : runs 0x9FFF State.reset (fun t => t.pc == 0xFFFF) = true := by decide
theorem test_jmp_forward : runs 0x97FF { State.reset with pc := 0x0010 } (fun t => t.pc == 0x080F) = true := by decide
theorem test_brz_taken : runs 0xAFFD { withFlags State.reset true true with pc := 0x0020 }
    (fun t => t.pc == 0x001D) = true := by decide
theorem test_brz_not_taken : runs 0xA003 { State.reset with pc := 0x0020 } (fun t => t.pc == 0x0021) = true := by decide
theorem test_brnz_taken : runs 0xBFFC { State.reset with pc := 0x0020 } (fun t => t.pc == 0x001C) = true := by decide
theorem test_brnz_not_taken : runs 0xBFFC { withFlags State.reset true true with pc := 0x0020 }
    (fun t => t.pc == 0x0021) = true := by decide
theorem test_brns_taken : runs 0xC002 { withFlags State.reset true false with pc := 0x0020 }
    (fun t => t.pc == 0x0022) = true := by decide
theorem test_brns_not_taken : runs 0xC002 { withFlags State.reset false true with pc := 0x0020 }
    (fun t => t.pc == 0x0021) = true := by decide

/-! ### Shift and compare (sections 2.7, 2.8) -/

theorem test_shl_own_amount : runs 0xD110 (withRegs [(1, 3)]) (fun t => readReg t 1 == 0x0018 && !t.zFlag) = true := by
  decide
theorem test_shl_ignores_rs : runs 0xD1FB (withRegs [(1, 1), (15, 9)]) (fun t => readReg t 1 == 8) = true := by decide
theorem test_shr_logical : runs 0xE109 (withRegs [(1, 0x8000)]) (fun t => readReg t 1 == 0x4000) = true := by decide
theorem test_shr_by_width : runs 0xE120 (withRegs [(1, 0xFFFF), (2, 0x0010)])
    (fun t => readReg t 1 == 0 && t.zFlag) = true := by decide
theorem test_cmp_less : runs 0xF120 (withRegs [(1, 0x7FFF), (2, 0x8000)])
    (fun t => !t.zFlag && t.sFlag && readReg t 1 == 0x7FFF) = true := by decide
theorem test_cmp_equal : runs 0xF440 (withFlags (withRegs [(4, 0x1234)]) false true)
    (fun t => t.zFlag && !t.sFlag) = true := by decide
theorem test_nop : runs 0xF12F { withFlags State.reset true false with pc := 7 }
    (fun t => t.pc == 8 && t.zFlag && !t.sFlag) = true := by decide

/-! ### Stops (section 2.8, the last lines of part 3) -/

theorem test_reserved_stops : stops 0xF12E State.reset (.reservedEncoding 0xF12E 0) = true := by decide
theorem test_unloaded_stops : (match step State.reset with | .fault f => decide (f = .fetchUnloaded 0) | _ => false) = true := by
  decide

/-- Program P6 of section 3 at its third instruction: the recommended treatment stops at r3. -/
theorem test_unspecified_read : (match checkedExec [.reg 1] (.add 2 1 3) (withRegs [(1, 1)]) with
    | .stop r => decide (r = .unspecifiedRead (.reg 3)) | .next _ _ => false) = true := by decide

/-! ### Witnesses: each obligation's hypotheses can be met -/

/-- Every row of the opcode map is met, at words whose operand bits are all ones. -/
theorem witness_opcode_map :
    0x0FFF#16 &&& 0xF000#16 = 0x0000#16 ∧ 0x1FFF#16 &&& 0xF000#16 = 0x1000#16 ∧ 0x2FFF#16 &&& 0xF000#16 = 0x2000#16 ∧
    0x3FFF#16 &&& 0xF000#16 = 0x3000#16 ∧ 0x4FFF#16 &&& 0xF000#16 = 0x4000#16 ∧ 0x5FFF#16 &&& 0xF000#16 = 0x5000#16 ∧
    0x6FFF#16 &&& 0xF000#16 = 0x6000#16 ∧ 0x7FFF#16 &&& 0xF000#16 = 0x7000#16 ∧ 0x8FFF#16 &&& 0xF000#16 = 0x8000#16 ∧
    0x9FFF#16 &&& 0xF000#16 = 0x9000#16 ∧ 0xAFFF#16 &&& 0xF000#16 = 0xA000#16 ∧ 0xBFFF#16 &&& 0xF000#16 = 0xB000#16 ∧
    0xCFFF#16 &&& 0xF000#16 = 0xC000#16 := by decide

/-- The rows that test more than the opcode, and both ends of the reserved row. -/
theorem witness_opcode_map_forms :
    0xDFF7#16 &&& 0xF008#16 = 0xD000#16 ∧ 0xDFFF#16 &&& 0xF008#16 = 0xD008#16 ∧ 0xEFF7#16 &&& 0xF008#16 = 0xE000#16 ∧
    0xEFFF#16 &&& 0xF008#16 = 0xE008#16 ∧ 0xFFF0#16 &&& 0xF00F#16 = 0xF000#16 ∧ 0xFFFF#16 &&& 0xF00F#16 = 0xF00F#16 ∧
    (0xFFF1#16 &&& 0xF000#16 = 0xF000#16 ∧ (0xFFF1#16).extractLsb' 0 4 ≠ 0b0000#4 ∧ (0xFFF1#16).extractLsb' 0 4 ≠ 0b1111#4) ∧
    (0xFFFE#16 &&& 0xF000#16 = 0xF000#16 ∧ (0xFFFE#16).extractLsb' 0 4 ≠ 0b0000#4 ∧ (0xFFFE#16).extractLsb' 0 4 ≠ 0b1111#4) := by
  decide

theorem witness_encode_decode : decode 0xD1FB#16 = .instr (.shl 1 15 true 3) := by decide

/-- Either bit order, with a word that decodes to an instruction. -/
theorem witness_either_bit_order :
    decodeWith params 0x11FF#16 = .instr (.addi 1 0xFF) ∧
    ({ params with bit0IsMsb := false } : Config 16 16).bit0IsMsb = false ∧
    decodeWith { params with bit0IsMsb := false } 0xFF18#16 = .instr (.addi 1 0xFF) := by decide

/-- A state at a loaded instruction (`store r4, r1, 15`), both memories canonical; its step answers a next state. -/
def storing : State := placeInstr (withRegs [(1, 0x0100), (4, 0xBEEF)]) 0 0x841F#16

theorem witness_step_runs : instrAt params storing storing.pc = some 0x841F#16 ∧
    decode 0x841F#16 = .instr (.store 4 1 15) := by decide

theorem witness_step_next : MemoriesCanonical storing ∧ ∃ t, step storing = .next t :=
  ⟨by unfold MemoriesCanonical; decide, _, rfl⟩

theorem witness_placed_word_elsewhere : (1 : PC) ≠ storing.pc := by decide

/-- For the rules over all instructions: one that writes registers and flags, one of each branch, one that stores. -/
theorem witness_exec_next : (∃ t, exec (.add 3 1 2) storing = .next t) ∧ (∃ t, exec (.brz 0xFFF) storing = .next t) ∧
    (∃ t, exec (.brnz 0xFFF) storing = .next t) ∧ (∃ t, exec (.brns 0xFFF) storing = .next t) ∧
    (∃ t, exec (.jmp 0x800) storing = .next t) ∧ ∃ t, exec (.store 4 1 15) storing = .next t :=
  ⟨⟨_, rfl⟩, ⟨_, rfl⟩, ⟨_, rfl⟩, ⟨_, rfl⟩, ⟨_, rfl⟩, ⟨_, rfl⟩⟩

/-- Two different states that agree on what `add r3, r1, r2` reads. -/
theorem witness_reads_agree : storing.pc = (withRegs [(1, 0x0100), (2, 0), (5, 7)]).pc ∧
    (∀ l ∈ reads (.add 3 1 2) storing, valueAt storing l = valueAt (withRegs [(1, 0x0100), (2, 0), (5, 7)]) l) ∧
    readReg storing 5 ≠ readReg (withRegs [(1, 0x0100), (2, 0), (5, 7)]) 5 := by decide

/-- A data word that a store changes. -/
theorem witness_store_changes : ∃ t, exec (.store 4 1 15) (placeData storing 0x010F 0) = .next t ∧
    dataWord params t 0x010F ≠ dataWord params (placeData storing 0x010F 0) 0x010F :=
  ⟨_, rfl, by decide⟩

/-- After reset, with nothing at address 0 and with an instruction there. -/
theorem witness_after_reset : (AfterReset State.reset ∧ instrAt params State.reset 0 = none) ∧
    (AfterReset storing ∧ instrAt params storing 0 = some 0x841F#16 ∧ decode 0x841F#16 = .instr (.store 4 1 15)) :=
  ⟨⟨⟨rfl, rfl⟩, by decide⟩, ⟨rfl, rfl⟩, by decide, by decide⟩

/-- An image of the greatest length fits. -/
theorem witness_image : (List.replicate (2 ^ 16) 0xF00F#16).length ≤ 2 ^ 16 :=
  Nat.le_of_eq List.length_replicate

/-- Each of the four self-loops is quiescent. -/
theorem witness_quiescent : Quiescent (placeInstr State.reset 0 0x9000#16) ∧
    Quiescent (placeInstr (withFlags State.reset true false) 0 0xA000#16) ∧
    Quiescent (placeInstr State.reset 0 0xB000#16) ∧ Quiescent (placeInstr State.reset 0 0xC000#16) := ⟨rfl, rfl, rfl, rfl⟩

theorem witness_subtract_immediate : (1 ≤ 1 ∧ 1 ≤ 128) ∧ (1 ≤ 128 ∧ 128 ≤ 128) := by decide

theorem witness_sub_or_cmp : (∃ t, exec (.sub 3 1 2) storing = .next t) ∧ ∃ t, exec (.cmp 1 2) storing = .next t :=
  ⟨⟨_, rfl⟩, _, rfl⟩

theorem witness_shift_amount : ∃ amt : Nat, amt = if false = true then (7 : BitVec 3).toNat else (readReg storing 1).toNat :=
  ⟨_, rfl⟩

/-- A machine with one memory, in which a store completes at an address that fetch can reach; and this machine. -/
theorem witness_either_organisation :
    (({ params with memOrg := .unified } : Config 16 16).memOrg = .unified ∧
      (∃ t, execWith { params with memOrg := .unified } (.store 4 1 15) storing = .next t) ∧
      ({ params with memOrg := .unified } : Config 16 16).unitsPerInstr = 1 ∧
      (0x010F : PC).toNat < ({ params with memOrg := .unified } : Config 16 16).imemWords) ∧
    params.memOrg = .harvard ∧ ∃ t, execWith params (.store 4 1 15) storing = .next t :=
  ⟨⟨rfl, ⟨_, rfl⟩, rfl, by decide⟩, rfl, _, rfl⟩

/-- With 16 data words, an address at the top of them and one just above. -/
theorem witness_absent_words :
    (effectiveAddress params State.reset 0 15).toNat < ({ params with dmemWords := 16 } : Config 16 16).dmemWords ∧
    ¬ (effectiveAddress params (withRegs [(0, 1)]) 0 15).toNat < ({ params with dmemWords := 16 } : Config 16 16).dmemWords := by
  decide

/-! ### Other parameters: the least widths that R5 admits, and a pc that counts bytes -/

/-- XLEN = 8, PCW = 12, two pc units to the instruction, signed load and store offsets, unsigned branch offsets. -/
def narrow : Config 8 12 where
  bit0IsMsb := true
  unitsPerInstr := 2
  branchBase := 0
  memOrg := .harvard
  dmemWords := 2 ^ 8
  imemWords := 2 ^ 11
  lsOffsetSigned := true
  brOffsetSigned := false
  addOverflow := addCarry
  subUnderflow := subBorrow
  addiOpSpecific := addiCarry
  shiftBig := shiftBigZero
  reservedCmp := .compare
  resetPc := 0
  initialData := id

/-- The narrow machine after reset, r1 = 0xFF, r2 = 1, a word placed as its first instruction. -/
def narrowAt (w : InstrWord) : State.Of 8 12 :=
  placeInstr (writeReg (writeReg (State.resetWith narrow) 1 0xFF) 2 1) 0 w

/-- One step of the narrow machine answers a next state with a property. -/
def narrowRuns (w : InstrWord) (p : State.Of 8 12 → Bool) : Bool :=
  match stepWith narrow (narrowAt w) with
  | .next t => p t
  | .fault _ => false
  | .refused _ => false

theorem test_narrow_add_wraps : narrowRuns 0x0312#16 (fun t => readReg t 3 == 0 && t.zFlag && t.sFlag && t.pc == 2) = true := by
  decide
theorem test_narrow_loadi : narrowRuns 0x6380#16 (fun t => readReg t 3 == 0x80) = true := by decide
theorem test_narrow_load_signed_offset : narrowRuns 0x732E#16 (fun t => readReg t 3 == 0xFF) = true := by decide
theorem test_narrow_jmp_back : narrowRuns 0x9FFE#16 (fun t => t.pc == 0xFFE) = true := by decide
theorem test_narrow_reserved_compares : narrowRuns 0xF117#16 (fun t => t.zFlag && t.pc == 2) = true := by decide
theorem test_narrow_odd_pc_stops : (match stepWith narrow { narrowAt 0x0312#16 with pc := 1 } with
    | .fault f => decide (f = .fetchUnloaded 1) | _ => false) = true := by decide

/-- The defaults are admissible, and so are the least widths with a pc that counts bytes. -/
theorem witness_admissible : parameters.Admissible ∧ (Parameters.mk 8 12 narrow).Admissible := by
  refine ⟨⟨?_, ?_, ?_, ?_⟩, ⟨?_, ?_, ?_, ?_⟩⟩ <;> decide

/-- A pc inside an instruction of the narrow machine; an instruction of it that answers a next state. -/
theorem witness_pc_units : (1 : PC 12).toNat % narrow.unitsPerInstr ≠ 0 ∧
    ∃ t, execWith narrow (.brnz 0xFFF) (narrowAt 0#16) = .next t := ⟨by decide, _, rfl⟩

/-- Both sides of the width: an immediate shift by 7 and a register shift by 255. -/
theorem witness_shift_widths : (7 = (if true = true then (7 : BitVec 3).toNat else (readReg (narrowAt 0#16) 1).toNat) ∧ 7 < 8) ∧
    (255 = (if false = true then (7 : BitVec 3).toNat else (readReg (narrowAt 0#16) 1).toNat) ∧ 8 ≤ 255) := by decide

/-- An address that meets the hypotheses under a signed offset (255 - 8) and under an unsigned one. -/
theorem witness_addresses : ((247 : Int) = (((readReg (narrowAt 0#16) 1).toNat : Int) + (8 : BitVec 4).toInt) % 2 ^ 8 ∧
      (247 : Word 8).toNat < narrow.dmemWords) ∧
    ((15 : Int) = (((readReg State.reset 1).toNat : Int) + ((15 : BitVec 4).toNat : Int)) % 2 ^ 16 ∧
      (15 : Word).toNat < params.dmemWords) := by decide

/-- A reserved word at pc under each of the three values. -/
theorem witness_reserved_values :
    (instrAt narrow (narrowAt 0xF117#16) 0 = some 0xF117#16 ∧ decodeWith narrow 0xF117#16 = .reserved 0xF117#16) ∧
    narrow.bit0IsMsb = true ∧ narrow.reservedCmp = .compare ∧ params.reservedCmp = .stop ∧
    ({ params with reservedCmp := .nothing } : Config 16 16).reservedCmp = .nothing := by decide

/-- Each of the four self-loop words at pc, under its flag condition. -/
theorem witness_self_loops : instrAt params (placeInstr State.reset 0 0x9000#16) 0 = some 0x9000#16 ∧
    instrAt params (placeInstr (withFlags State.reset true false) 0 0xA000#16) 0 = some 0xA000#16 ∧
    instrAt params (placeInstr State.reset 0 0xB000#16) 0 = some 0xB000#16 ∧
    instrAt params (placeInstr State.reset 0 0xC000#16) 0 = some 0xC000#16 ∧
    (withFlags State.reset true false).zFlag = true ∧ State.reset.zFlag = false ∧ State.reset.sFlag = false := by decide

/-- A checked step that goes on, and one that stops at its second read. -/
theorem witness_checked_step : (∃ d t, checkedStep [.reg 1, .reg 4] storing = .next d t) ∧
    (instrAt params storing storing.pc = some 0x841F#16 ∧ decode 0x841F#16 = .instr (.store 4 1 15) ∧
      checkedStep [.reg 1] storing = .stop (.unspecifiedRead (.reg 4))) :=
  ⟨⟨_, _, rfl⟩, by decide, by decide, rfl⟩

/-- Two states that agree on what is defined and differ elsewhere. -/
theorem witness_agree : AgreeOn [.reg 1, .reg 4] storing (withFlags storing true true) ∧ storing.zFlag ≠ true :=
  ⟨⟨rfl, fun _ => rfl, by decide⟩, by decide⟩

end Sys2Proof.Tests
end

/-! SUPPORT. The flag table of 10_state.md R17. Three shapes cover its rows: an instruction that stores a result ends in
`finishResult`, a branch moves pc on one of two ways, and every other instruction leaves both flags as they were. -/

namespace Sys2Proof.Proofs

open Sys2Proof.Machine Sys2Proof.Safety

variable {xlen pcw : Nat}

/-- Z agrees with the register that receives the result (R18). -/
theorem finishResult_zFlag_iff (cfg : Config xlen pcw) (s : State.Of xlen pcw) (rd : Reg) (r : Word xlen) :
    (finishResult cfg s rd r).zFlag = true ↔ readReg (finishResult cfg s rd r) rd = 0 := by
  simp

theorem flagsUnchanged_advance (s : State) : FlagsUnchanged s (advance params s) := ⟨rfl, rfl⟩

theorem flagsUnchanged_jumpTo (s : State) (a : PC) : FlagsUnchanged s (jumpTo s a) := ⟨rfl, rfl⟩

/-- A branch keeps the flags, taken or not, if each of its two ways does. -/
theorem flagsUnchanged_ite {s t u : State} (c : Prop) [Decidable c] (ht : FlagsUnchanged s t) (hu : FlagsUnchanged s u) :
    FlagsUnchanged s (if c then t else u) := by
  split <;> assumption

/-- Settles O29: the equation of each instruction names its next state, and the flags of that state are those of its row. -/
theorem flagTable : Obligations.FlagTable := by
  intro i s
  cases i with
  | add rd rs1 rs2 => exact ⟨_, exec_add s rd rs1 rs2, finishResult_zFlag_iff .., rfl⟩
  | addi rd imm8 => exact ⟨_, exec_addi s rd imm8, finishResult_zFlag_iff .., rfl⟩
  | sub rd rs1 rs2 => exact ⟨_, exec_sub s rd rs1 rs2, finishResult_zFlag_iff .., rfl⟩
  | and rd rs1 rs2 => exact ⟨_, exec_and s rd rs1 rs2, finishResult_zFlag_iff .., rfl⟩
  | or rd rs1 rs2 => exact ⟨_, exec_or s rd rs1 rs2, finishResult_zFlag_iff .., rfl⟩
  | xor rd rs1 rs2 => exact ⟨_, exec_xor s rd rs1 rs2, finishResult_zFlag_iff .., rfl⟩
  | loadi rd imm8 => exact ⟨_, exec_loadi s rd imm8, rfl, rfl⟩
  | load rd rs1 off4 => exact ⟨_, exec_load s rd rs1 off4, rfl, rfl⟩
  | store rs2 rs1 off4 => exact ⟨_, exec_store s rs2 rs1 off4, rfl, rfl⟩
  | jmp off12 => exact ⟨_, exec_jmp s off12, flagsUnchanged_jumpTo s _⟩
  | brz off12 =>
    exact ⟨_, exec_brz s off12, flagsUnchanged_ite _ (flagsUnchanged_jumpTo s _) (flagsUnchanged_advance s)⟩
  | brnz off12 =>
    exact ⟨_, exec_brnz s off12, flagsUnchanged_ite _ (flagsUnchanged_advance s) (flagsUnchanged_jumpTo s _)⟩
  | brns off12 =>
    exact ⟨_, exec_brns s off12, flagsUnchanged_ite _ (flagsUnchanged_advance s) (flagsUnchanged_jumpTo s _)⟩
  | shl rd rs immflag imm3 => exact ⟨_, exec_shl s rd rs immflag imm3, finishResult_zFlag_iff .., rfl⟩
  | shr rd rs immflag imm3 => exact ⟨_, exec_shr s rd rs immflag imm3, finishResult_zFlag_iff .., rfl⟩
  | cmp rs1 rs2 => exact ⟨_, exec_cmp s rs1 rs2, zeroFlag_eq_true _, rfl⟩
  | nop unused => exact ⟨_, exec_nop s unused, flagsUnchanged_advance s⟩

end Sys2Proof.Proofs

/-! SUPPORT. The opcode map of 30_encoding.md R59. A row fixes a word under its mask, so it fixes every field that the mask
covers, and with those fields the branch that the decoder takes. -/

namespace Sys2Proof.Proofs

variable {w mask m : InstrWord}

/-- A word that meets a match has the match's value in every field that the mask covers. -/
theorem field_of_match (h : w &&& mask = m) {lo n : Nat} (hmask : mask.extractLsb' lo n = BitVec.allOnes n) :
    w.extractLsb' lo n = m.extractLsb' lo n := by
  rw [← h, BitVec.extractLsb'_and, hmask, BitVec.and_allOnes]

/-- A word that meets a match has the match's value in every single bit that the mask covers. -/
theorem bit_of_match (h : w &&& mask = m) {k : Nat} (hmask : mask.getLsbD k = true) : w.getLsbD k = m.getLsbD k := by
  rw [← h, BitVec.getLsbD_and, hmask, Bool.and_true]

/-- Settles O1: the opcode selects the decoder's branch, for a shift the Imm? bit is one of its fields, and for a compare
word the Nop? field selects again. -/
theorem opcodeMapDecodes : Obligations.OpcodeMapDecodes := by
  intro w
  refine ⟨?add, ?addi, ?sub, ?and, ?or, ?xor, ?loadi, ?load, ?store, ?jmp, ?brz, ?brnz, ?brns,
    ?shlRegister, ?shlImmediate, ?shrRegister, ?shrImmediate, ?cmp, ?nop, ?reserved⟩
  case add | addi | sub | and | or | xor | loadi | load | store | jmp | brz | brnz | brns =>
    intro h
    have opcode := field_of_match h (lo := 12) (n := 4) rfl
    rw [decode_eq, opcode]
    rfl
  case shlRegister | shlImmediate | shrRegister | shrImmediate =>
    intro h
    have opcode := field_of_match h (lo := 12) (n := 4) rfl
    have immBit := bit_of_match h (k := 3) rfl
    rw [decode_eq, opcode, immBit]
    rfl
  case cmp | nop =>
    intro h
    have opcode := field_of_match h (lo := 12) (n := 4) rfl
    have nopField := field_of_match h (lo := 0) (n := 4) rfl
    rw [decode_eq, opcode, nopField]
    rfl
  case reserved =>
    intro h notCmp notNop
    have opcode : w.extractLsb' 12 4 = 0b1111#4 := field_of_match h rfl
    rw [decode_eq, opcode]
    change (match w.extractLsb' 0 4 with | 0b0000#4 => _ | 0b1111#4 => _ | _ => Decoded.reserved w) = _
    split
    · contradiction
    · contradiction
    · rfl

end Sys2Proof.Proofs

/-! SUPPORT. sub, and, or and xor of 40_arithmetic.md. All four end in `finishResult`, so what it leaves in rd and what it
leaves unchanged is said once; the operation itself is all that is left to each instruction. -/

namespace Sys2Proof.Proofs

open Sys2Proof.Machine Sys2Proof.Safety

theorem readReg_finishResult_self {xlen pcw : Nat} (cfg : Config xlen pcw) (s : State.Of xlen pcw) (rd : Reg)
    (r : Word xlen) : readReg (finishResult cfg s rd r) rd = r := by
  simp

/-- Storing a result changes no register but rd, no data word and no word of the program. -/
theorem finishResult_frame (s : State) (rd : Reg) (r : Word) :
    RegsUnchangedBut [rd] s (finishResult params s rd r) ∧ DataUnchangedBut [] s (finishResult params s rd r) ∧
      ProgramUnchanged s (finishResult params s rd r) := by
  refine ⟨fun r' hr' => ?_, fun a _ => dataWord_finishResult params s rd r a, instrAt_finishResult params s rd r⟩
  have hne : r' ≠ rd := by simpa using hr'
  rw [readReg_finishResult, if_neg hne]

/-- The frame holds from the state before S was set too: setting S changes no register and no memory. -/
theorem finishResult_setSpecific_frame (s : State) (b : Bool) (rd : Reg) (r : Word) :
    RegsUnchangedBut [rd] s (finishResult params (setSpecific s b) rd r) ∧
      DataUnchangedBut [] s (finishResult params (setSpecific s b) rd r) ∧
      ProgramUnchanged s (finishResult params (setSpecific s b) rd r) :=
  finishResult_frame (setSpecific s b) rd r

/-- The stored difference is the difference of the numbers modulo 2^16. -/
theorem sub_toNat_eq_emod (a b : Word) : ((a - b).toNat : Int) = ((a.toNat : Int) - b.toNat) % 2 ^ 16 := by
  rw [BitVec.toNat_sub]
  omega

/-- Settles O14: the equation of sub names its next state, and SubUnderflow has its default, the borrow. -/
theorem subWritesDifferenceAndFlags : Obligations.SubWritesDifferenceAndFlags := by
  refine ⟨fun w => ?encoding, fun rd rs1 rs2 s => ⟨_, exec_sub s rd rs1 rs2, ?difference, finishResult_zFlag_iff .., rfl,
    subBorrow_eq_true .., finishResult_setSpecific_frame ..⟩⟩
  case encoding =>
    obtain ⟨-, -, hsub, -⟩ := opcodeMapDecodes w
    exact hsub
  case difference => rw [readReg_finishResult_self, sub_toNat_eq_emod]

/-- Settles O15: the equation of and names its next state; S is no part of `finishResult`. -/
theorem andWritesConjunction : Obligations.AndWritesConjunction := by
  refine ⟨fun w => ?encoding, fun rd rs1 rs2 s =>
    ⟨_, exec_and s rd rs1 rs2, fun k _ => ?bit, finishResult_zFlag_iff .., rfl, finishResult_frame ..⟩⟩
  case encoding =>
    obtain ⟨-, -, -, hand, -⟩ := opcodeMapDecodes w
    exact hand
  case bit => rw [readReg_finishResult_self, BitVec.getLsbD_and]

/-- Settles O16: the equation of or names its next state; S is no part of `finishResult`. -/
theorem orWritesDisjunction : Obligations.OrWritesDisjunction := by
  refine ⟨fun w => ?encoding, fun rd rs1 rs2 s =>
    ⟨_, exec_or s rd rs1 rs2, fun k _ => ?bit, finishResult_zFlag_iff .., rfl, finishResult_frame ..⟩⟩
  case encoding =>
    obtain ⟨-, -, -, -, hor, -⟩ := opcodeMapDecodes w
    exact hor
  case bit => rw [readReg_finishResult_self, BitVec.getLsbD_or]

/-- Settles O17: the equation of xor names its next state; S is no part of `finishResult`. -/
theorem xorWritesExclusiveOr : Obligations.XorWritesExclusiveOr := by
  refine ⟨fun w => ?encoding, fun rd rs1 rs2 s =>
    ⟨_, exec_xor s rd rs1 rs2, fun k _ => ?bit, finishResult_zFlag_iff .., rfl, finishResult_frame ..⟩⟩
  case encoding =>
    obtain ⟨-, -, -, -, -, hxor, -⟩ := opcodeMapDecodes w
    exact hxor
  case bit => rw [readReg_finishResult_self, BitVec.getLsbD_xor]

end Sys2Proof.Proofs

/-! SUPPORT. loadi, load and store of 41_memory_ops.md. The first two end in a register write and store in a data word
placed; each of the two ends has its frame, said once, and load and store share the address of R36. -/

namespace Sys2Proof.Proofs

open Sys2Proof.Machine Sys2Proof.Safety

/-- Writing a register and moving on changes no other register, no flag, no data word and no word of the program. -/
theorem advance_writeReg_frame (s : State) (rd : Reg) (v : Word) :
    FlagsUnchanged s (advance params (writeReg s rd v)) ∧ RegsUnchangedBut [rd] s (advance params (writeReg s rd v)) ∧
      DataUnchangedBut [] s (advance params (writeReg s rd v)) ∧
      ProgramUnchanged s (advance params (writeReg s rd v)) := by
  refine ⟨⟨rfl, rfl⟩, fun r hr => ?_, fun _ _ => rfl, fun _ => rfl⟩
  rw [readReg_advance, readReg_writeReg_ne s v (List.ne_of_not_mem_cons hr)]

/-- Placing a data word and moving on changes no other data word, no register, no flag and no word of the program. -/
theorem advance_placeData_frame (s : State) (a v : Word) :
    DataUnchangedBut [a] s (advance params (placeData s a v)) ∧
      RegsUnchangedBut [] s (advance params (placeData s a v)) ∧ FlagsUnchanged s (advance params (placeData s a v)) ∧
      ProgramUnchanged s (advance params (placeData s a v)) := by
  refine ⟨fun b hb => ?_, fun _ _ => rfl, ⟨rfl, rfl⟩, instrAt_placeData s a v⟩
  rw [dataWord_advance, dataWord_placeData_ne params s v (List.ne_of_not_mem_cons hb)]

/-- The effective address is the base plus the unsigned offset, modulo 2^16 (R36, R55). -/
theorem effectiveAddress_params_toNat (s : State) (base : Reg) (off4 : BitVec 4) :
    (effectiveAddress params s base off4).toNat = ((readReg s base).toNat + off4.toNat) % 2 ^ 16 := by
  have offset : (off4.setWidth 16).toNat = off4.toNat := BitVec.toNat_setWidth_of_le (by decide)
  rw [effectiveAddress, memOffset_params, BitVec.toNat_add, offset]

/-- Settles O18: the equation of loadi names its next state, and sign extension keeps the signed value. -/
theorem loadiWritesSignedImmediate : Obligations.LoadiWritesSignedImmediate := by
  refine ⟨fun w => ?encoding, fun rd imm8 s => ⟨_, exec_loadi s rd imm8, ?value, advance_writeReg_frame ..⟩⟩
  case encoding =>
    obtain ⟨-, -, -, -, -, -, hloadi, -⟩ := opcodeMapDecodes w
    exact hloadi
  case value =>
    rw [readReg_advance, readReg_writeReg_self, immOperand, BitVec.toInt_signExtend_of_le (by decide)]

/-- Settles O19: the equation of load names its next state, whose rd holds the data word of the state before. -/
theorem loadReadsAddressedWord : Obligations.LoadReadsAddressedWord := by
  refine ⟨fun w => ?encoding, fun rd rs1 off4 s => ⟨_, exec_load s rd rs1 off4, effectiveAddress_params_toNat s rs1 off4,
    ?value, advance_writeReg_frame ..⟩⟩
  case encoding =>
    obtain ⟨-, -, -, -, -, -, -, hload, -⟩ := opcodeMapDecodes w
    exact hload
  case value => rw [readReg_advance, readReg_writeReg_self]

/-- Settles O20: the equation of store names its next state, in which the addressed word is the one placed. -/
theorem storeWritesAddressedWord : Obligations.StoreWritesAddressedWord := by
  refine ⟨fun w => ?encoding, fun rs2 rs1 off4 s => ⟨_, exec_store s rs2 rs1 off4,
    effectiveAddress_params_toNat s rs1 off4, ?value, advance_placeData_frame ..⟩⟩
  case encoding =>
    obtain ⟨-, -, -, -, -, -, -, -, hstore, -⟩ := opcodeMapDecodes w
    exact hstore
  case value => rw [dataWord_advance, dataWord_placeData_self]

end Sys2Proof.Proofs

/-! SUPPORT. jmp of 42_control_flow.md. Its next state is the old one with pc at the target of R110, so what is left to
say is the target as a number and the frame of moving pc; both hold for a taken branch as well. -/

namespace Sys2Proof.Proofs

open Sys2Proof.Machine Sys2Proof.Safety

variable {xlen pcw : Nat}

/-- Moving pc changes no register, no flag, no data word and no word of the program. -/
theorem jumpTo_frame (s : State) (a : PC) :
    RegsUnchangedBut [] s (jumpTo s a) ∧ FlagsUnchanged s (jumpTo s a) ∧ DataUnchangedBut [] s (jumpTo s a) ∧
      ProgramUnchanged s (jumpTo s a) :=
  ⟨fun _ _ => rfl, flagsUnchanged_jumpTo s a, fun _ _ => rfl, fun _ => rfl⟩

/-- A signed value agrees with the unsigned value of the same bits modulo 2^n. -/
theorem toInt_emod_two_pow {n : Nat} (x : BitVec n) : x.toInt % 2 ^ n = x.toNat := by
  have modulus : (2 : Int) ^ n = (2 ^ n : Nat) := by norm_cast
  rw [modulus, BitVec.toInt_eq_toNat_bmod, Int.bmod_emod, ← Int.natCast_emod, BitVec.toNat_mod_cancel]

/-- The target is its own address plus BRANCH_BASE plus the signed offset, modulo 2^PCW (R110). -/
theorem target_toNat_eq_emod (cfg : Config xlen pcw) (pc offset : PC pcw) :
    ((target cfg pc offset).toNat : Int) = ((pc.toNat : Int) + cfg.branchBase.toNat + offset.toInt) % 2 ^ pcw := by
  rw [← Int.add_emod_emod, toInt_emod_two_pow, target, BitVec.toNat_add, BitVec.toNat_add, Nat.mod_add_mod]
  norm_cast

/-- Sign extension to a pc of at least 12 bits keeps the offset's signed value (R56). -/
theorem jumpOffset_toInt (hpcw : 12 ≤ pcw) (off12 : BitVec 12) : (jumpOffset off12 : PC pcw).toInt = off12.toInt :=
  BitVec.toInt_signExtend_of_le hpcw

/-- Settles O21: the equation of jmp names its next state, whose pc is the target at the sign-extended offset. -/
theorem jmpGoesToTarget : Obligations.JmpGoesToTarget := by
  refine ⟨fun w => ?encoding, fun off12 s => ⟨_, exec_jmp s off12, ?target, jumpTo_frame ..⟩⟩
  case encoding =>
    obtain ⟨-, -, -, -, -, -, -, -, -, hjmp, -⟩ := opcodeMapDecodes w
    exact hjmp
  case target => rw [jumpTo_pc, target_toNat_eq_emod, jumpOffset_toInt (by decide)]

end Sys2Proof.Proofs

/-! SUPPORT. shl, shr, cmp and nop of 43_shift_compare.md. The shifts end in `finishResult`, so what is left to say of them
is the shifted word on either side of the amount XLEN (R120); cmp and nop write no register and no memory. -/

namespace Sys2Proof.Proofs

open Sys2Proof.Machine Sys2Proof.Safety

variable {xlen pcw : Nat}

/-- Below XLEN a left shift is a product modulo 2^XLEN (R121). -/
theorem shiftLeft_toNat_of_lt (cfg : Config xlen pcw) (v : Word xlen) {amt : Nat} (h : amt < xlen) :
    (shiftLeft cfg v amt).toNat = v.toNat * 2 ^ amt % 2 ^ xlen := by
  rw [shiftLeft_of_lt cfg h, BitVec.toNat_shiftLeft, Nat.shiftLeft_eq]

/-- Below XLEN a right shift is a quotient: zeros enter at the top (R122). -/
theorem shiftRight_toNat_of_lt (cfg : Config xlen pcw) (v : Word xlen) {amt : Nat} (h : amt < xlen) :
    (shiftRight cfg v amt).toNat = v.toNat / 2 ^ amt := by
  rw [shiftRight_of_lt cfg h, BitVec.toNat_ushiftRight, Nat.shiftRight_eq_div_pow]

theorem shiftLeft_of_not_lt (cfg : Config xlen pcw) (v : Word xlen) {amt : Nat} (h : ¬amt < xlen) :
    shiftLeft cfg v amt = cfg.shiftBig .shl v amt := if_neg h

theorem shiftRight_of_not_lt (cfg : Config xlen pcw) (v : Word xlen) {amt : Nat} (h : ¬amt < xlen) :
    shiftRight cfg v amt = cfg.shiftBig .shr v amt := if_neg h

/-- The Zero flag of a difference tells whether the operands are equal. -/
theorem zeroFlag_sub_iff (a b : Word xlen) : zeroFlag (a - b) = true ↔ a = b :=
  (zeroFlag_eq_true _).trans sub_eq_zero

/-- Settles O25: the equation of shl names its next state, and the two sides of the amount 16 are the two cases of
`shiftLeft`. -/
theorem shlShiftsLeft : Obligations.ShlShiftsLeft := by
  refine ⟨fun w => ?encoding, fun rd rs immflag imm3 s amt hamt =>
    ⟨_, exec_shl s rd rs immflag imm3, ?value, finishResult_zFlag_iff .., rfl, finishResult_frame ..⟩⟩
  case encoding =>
    obtain ⟨-, -, -, -, -, -, -, -, -, -, -, -, -, hregister, himmediate, -⟩ := opcodeMapDecodes w
    exact ⟨hregister, himmediate⟩
  case value =>
    have amount : shiftAmount s rs immflag imm3 = amt := hamt.symm
    rw [readReg_finishResult_self, amount]
    split
    case isTrue small => exact shiftLeft_toNat_of_lt params _ small
    case isFalse big =>
      rw [shiftLeft_of_not_lt params _ big]
      exact ⟨rfl, shiftBigZero_eq .shl (readReg s rd) amt⟩

/-- Settles O26: the equation of shr names its next state, and the two sides of the amount 16 are the two cases of
`shiftRight`. -/
theorem shrShiftsRight : Obligations.ShrShiftsRight := by
  refine ⟨fun w => ?encoding, fun rd rs immflag imm3 s amt hamt =>
    ⟨_, exec_shr s rd rs immflag imm3, ?value, finishResult_zFlag_iff .., rfl, finishResult_frame ..⟩⟩
  case encoding =>
    obtain ⟨-, -, -, -, -, -, -, -, -, -, -, -, -, -, -, hregister, himmediate, -⟩ := opcodeMapDecodes w
    exact ⟨hregister, himmediate⟩
  case value =>
    have amount : shiftAmount s rs immflag imm3 = amt := hamt.symm
    rw [readReg_finishResult_self, amount]
    split
    case isTrue small => exact shiftRight_toNat_of_lt params _ small
    case isFalse big =>
      rw [shiftRight_of_not_lt params _ big]
      exact ⟨rfl, shiftBigZero_eq .shr (readReg s rd) amt⟩

/-- Settles O27: the equations of cmp and sub set both flags from the same borrow and the same difference, and cmp writes
nothing else but pc. -/
theorem cmpSetsFlagsOfDifference : Obligations.CmpSetsFlagsOfDifference := by
  refine ⟨fun w => ?encoding, fun rs1 rs2 s => ⟨_, exec_cmp s rs1 rs2, zeroFlag_sub_iff .., rfl, subBorrow_eq_true ..,
    fun rd => ⟨_, exec_sub s rd rs1 rs2, rfl, rfl⟩, fun _ _ => rfl, fun _ _ => rfl, fun _ => rfl⟩⟩
  case encoding =>
    obtain ⟨-, -, -, -, -, -, -, -, -, -, -, -, -, -, -, -, -, hcmp, -⟩ := opcodeMapDecodes w
    exact hcmp

/-- Settles O28: the next state of nop is the state with pc advanced by one instruction. -/
theorem nopOnlyAdvances : Obligations.NopOnlyAdvances := by
  refine ⟨fun w => ?encoding, fun unused s => exec_nop s unused⟩
  case encoding =>
    obtain ⟨-, -, -, -, -, -, -, -, -, -, -, -, -, -, -, -, -, -, hnop, -⟩ := opcodeMapDecodes w
    exact hnop

end Sys2Proof.Proofs

/-! SUPPORT. The decoder and the encoder of 30_encoding.md under either bit numbering (D1). Both are read through document
order: the turn of the word and the turn of each field undo themselves, so a round trip is one of laying fields out and
slicing them again. -/

namespace Sys2Proof.Proofs

variable {xlen pcw : Nat}

/-! ### The turns of BIT0_IS_MSB (R51) -/

@[simp] theorem documentOrder_documentOrder (cfg : Config xlen pcw) (w : InstrWord) :
    documentOrder cfg (documentOrder cfg w) = w := by
  unfold documentOrder
  split <;> simp

@[simp] theorem fieldValue_fieldValue (cfg : Config xlen pcw) {n : Nat} (f : BitVec n) :
    fieldValue cfg (fieldValue cfg f) = f := by
  unfold fieldValue
  split <;> simp

/-- The two Nop? values of an instruction read the same from both ends. -/
@[simp] theorem fieldValue_zero (cfg : Config xlen pcw) : fieldValue cfg 0b0000#4 = 0b0000#4 := by
  unfold fieldValue
  split <;> rfl

@[simp] theorem fieldValue_ones (cfg : Config xlen pcw) : fieldValue cfg 0b1111#4 = 0b1111#4 := by
  unfold fieldValue
  split <;> rfl

/-! ### The fields of a laid-out word, beside its opcode -/

theorem layoutNibbles_fields (op a b c : BitVec 4) :
    (layoutNibbles op a b c).extractLsb' 8 4 = a ∧ (layoutNibbles op a b c).extractLsb' 4 4 = b := by
  constructor <;> apply BitVec.eq_of_toNat_eq <;> rw [field_toNat, layoutNibbles_toNat] <;> omega

theorem layoutImm8_fields (op a : BitVec 4) (imm8 : BitVec 8) :
    (layoutImm8 op a imm8).extractLsb' 8 4 = a ∧ (layoutImm8 op a imm8).extractLsb' 0 8 = imm8 := by
  constructor <;> apply BitVec.eq_of_toNat_eq <;> rw [field_toNat, layoutImm8_toNat] <;> omega

theorem layoutOff12_field (op : BitVec 4) (off12 : BitVec 12) : (layoutOff12 op off12).extractLsb' 0 12 = off12 := by
  apply BitVec.eq_of_toNat_eq
  rw [field_toNat, layoutOff12_toNat]
  omega

theorem layoutShift_fields (op a b : BitVec 4) (immflag : Bool) (imm3 : BitVec 3) :
    (layoutShift op a b immflag imm3).extractLsb' 8 4 = a ∧ (layoutShift op a b immflag imm3).extractLsb' 4 4 = b ∧
      (layoutShift op a b immflag imm3).extractLsb' 0 3 = imm3 := by
  have := Bool.toNat_le immflag
  refine ⟨?_, ?_, ?_⟩ <;> apply BitVec.eq_of_toNat_eq <;> rw [field_toNat, layoutShift_toNat] <;> omega

theorem layoutShift_bit (op a b : BitVec 4) (immflag : Bool) (imm3 : BitVec 3) :
    (layoutShift op a b immflag imm3)[3] = immflag := layoutShift_colC op a b immflag imm3

theorem layoutNop_field (op : BitVec 4) (unused : BitVec 8) (nopf : BitVec 4) :
    (layoutNop op unused nopf).extractLsb' 4 8 = unused := by
  apply BitVec.eq_of_toNat_eq
  rw [field_toNat, layoutNop_toNat]
  omega

/-! ### Every word is laid out from its fields, in each format -/

theorem layoutImm8_of_fields (w : InstrWord) :
    layoutImm8 (w.extractLsb' 12 4) (w.extractLsb' 8 4) (w.extractLsb' 0 8) = w := by
  apply BitVec.eq_of_toNat_eq
  simp only [layoutImm8_toNat, field_toNat]
  omega

theorem layoutOff12_of_fields (w : InstrWord) : layoutOff12 (w.extractLsb' 12 4) (w.extractLsb' 0 12) = w := by
  apply BitVec.eq_of_toNat_eq
  simp only [layoutOff12_toNat, field_toNat]
  omega

theorem layoutShift_of_fields (w : InstrWord) : layoutShift (w.extractLsb' 12 4) (w.extractLsb' 8 4)
    (w.extractLsb' 4 4) (w.getLsbD 3) (w.extractLsb' 0 3) = w := by
  apply BitVec.eq_of_toNat_eq
  have bit : (w.getLsbD 3).toNat = w.toNat / 8 % 2 := by
    rw [BitVec.getLsbD, Nat.toNat_testBit]
  simp only [layoutShift_toNat, field_toNat, bit]
  omega

theorem layoutNop_of_fields (w : InstrWord) :
    layoutNop (w.extractLsb' 12 4) (w.extractLsb' 4 8) (w.extractLsb' 0 4) = w := by
  apply BitVec.eq_of_toNat_eq
  simp only [layoutNop_toNat, field_toNat]
  omega

/-! ### The round trips -/

/-- Decoding undoes encoding: the opcode selects the branch of the constructor, and each field is the one laid out. -/
theorem decodeWith_encodeWith (cfg : Config xlen pcw) (i : Instr) : decodeWith cfg (encodeWith cfg i) = .instr i := by
  cases i
  case add | sub | and | or | xor | load | store =>
    simp [decodeWith, encodeWith, encodeColumns, layoutNibbles_opcode, layoutNibbles_fields, layoutNibbles_low]
  case addi | loadi =>
    simp [decodeWith, encodeWith, encodeColumns, layoutImm8_opcode, layoutImm8_fields]
  case jmp | brz | brnz | brns =>
    simp [decodeWith, encodeWith, encodeColumns, layoutOff12_opcode, layoutOff12_field]
  case shl | shr =>
    simp [decodeWith, encodeWith, encodeColumns, layoutShift_opcode, layoutShift_fields, layoutShift_bit]
  case cmp =>
    simp [decodeWith, encodeWith, encodeColumns, layoutNibbles_opcode, layoutNibbles_fields, layoutNibbles_low]
  case nop =>
    simp [decodeWith, encodeWith, encodeColumns, layoutNop_opcode, layoutNop_field, layoutNop_low]

/-- Laying out what was sliced from a word in document order gives the word. -/
theorem encodeWith_eq_of_columns {cfg : Config xlen pcw} {i : Instr} {w : InstrWord}
    (h : encodeColumns cfg i = documentOrder cfg w) : encodeWith cfg i = w := by
  rw [encodeWith, h, documentOrder_documentOrder]

/-- Encoding undoes decoding: in each branch the decoder's fields, with the opcode that selected it, are all of the word. -/
theorem encodeWith_of_decodeWith {cfg : Config xlen pcw} {w : InstrWord} {i : Instr}
    (h : decodeWith cfg w = .instr i) : encodeWith cfg i = w := by
  apply encodeWith_eq_of_columns
  unfold decodeWith at h
  dsimp only at h
  split at h
  case h_1 opcode | h_3 opcode | h_4 opcode | h_5 opcode | h_6 opcode | h_8 opcode | h_9 opcode =>
    cases h
    simpa only [encodeColumns, fieldValue_fieldValue, opcode] using (eq_layoutNibbles (documentOrder cfg w)).symm
  case h_2 opcode | h_7 opcode =>
    cases h
    simpa only [encodeColumns, fieldValue_fieldValue, opcode] using layoutImm8_of_fields (documentOrder cfg w)
  case h_10 opcode | h_11 opcode | h_12 opcode | h_13 opcode =>
    cases h
    simpa only [encodeColumns, fieldValue_fieldValue, opcode] using layoutOff12_of_fields (documentOrder cfg w)
  case h_14 opcode | h_15 opcode =>
    cases h
    simpa only [encodeColumns, fieldValue_fieldValue, opcode] using layoutShift_of_fields (documentOrder cfg w)
  case h_16 =>
    have opcode : (documentOrder cfg w).extractLsb' 12 4 = 0b1111#4 := by
      simp only [imp_false] at *
      bv_omega
    split at h
    case h_1 nopField =>
      cases h
      have low : (documentOrder cfg w).extractLsb' 0 4 = 0b0000#4 := by simpa using congrArg (fieldValue cfg) nopField
      simpa only [encodeColumns, fieldValue_fieldValue, opcode, low] using (eq_layoutNibbles (documentOrder cfg w)).symm
    case h_2 nopField =>
      cases h
      have low : (documentOrder cfg w).extractLsb' 0 4 = 0b1111#4 := by simpa using congrArg (fieldValue cfg) nopField
      simpa only [encodeColumns, fieldValue_fieldValue, opcode, low] using layoutNop_of_fields (documentOrder cfg w)
    case h_3 => cases h

/-! ### The opcode -/

/-- The opcode takes no part in the turn of the fields. -/
theorem encodeColumns_opcode_eq {xlen' pcw' : Nat} (cfg : Config xlen pcw) (cfg' : Config xlen' pcw') (i : Instr) :
    (encodeColumns cfg i).extractLsb' 12 4 = (encodeColumns cfg' i).extractLsb' 12 4 := by
  cases i
  case add | sub | and | or | xor | load | store | cmp => simp only [encodeColumns, layoutNibbles_opcode]
  case addi | loadi => simp only [encodeColumns, layoutImm8_opcode]
  case jmp | brz | brnz | brns => simp only [encodeColumns, layoutOff12_opcode]
  case shl | shr => simp only [encodeColumns, layoutShift_opcode]
  case nop => simp only [encodeColumns, layoutNop_opcode]

theorem reverse_low_reverse (w : InstrWord) : (w.reverse.extractLsb' 0 4).reverse = w.extractLsb' 12 4 := by
  ext k hk
  have position : 15 - (3 - k) = 12 + k := by omega
  have inWord : 3 - k < 16 := by omega
  simp [BitVec.getElem_reverse, BitVec.getMsbD_eq_getLsbD, hk, position, inWord]
  omega

/-- Settles O5: each round trip holds as it stands; with column 0 at the bottom the word is its columns reversed, so its
low end is the opcode reversed. -/
theorem roundTripsUnderEitherBitOrder : Obligations.RoundTripsUnderEitherBitOrder := by
  refine fun xlen pcw cfg => ⟨decodeWith_encodeWith cfg, fun w i => encodeWith_of_decodeWith, fun hbit i => ?_⟩
  have turned : encodeWith cfg i = (encodeColumns cfg i).reverse := if_neg (by simp [hbit])
  rw [turned, reverse_low_reverse, encode_eq]
  exact encodeColumns_opcode_eq ..

/-- Settles O3: the round trip at the parameters of this machine. -/
theorem decodeEncodeRoundTrip : Obligations.DecodeEncodeRoundTrip := decodeWith_encodeWith Machine.params

/-- Settles O4: the other round trip at the parameters of this machine. -/
theorem encodeDecodeRoundTrip : Obligations.EncodeDecodeRoundTrip := fun _ _ => encodeWith_of_decodeWith

/-! ### The reserved words (R61, R125) -/

/-- Only the last branch of the decoder, and there only the last again, answers the reserved case; it names the word. -/
theorem decodeWith_eq_reserved {cfg : Config xlen pcw} {w v : InstrWord} (h : decodeWith cfg w = .reserved v) :
    v = w ∧ (documentOrder cfg w).extractLsb' 12 4 = 0b1111#4 ∧
      fieldValue cfg ((documentOrder cfg w).extractLsb' 0 4) ≠ 0b0000#4 ∧
      fieldValue cfg ((documentOrder cfg w).extractLsb' 0 4) ≠ 0b1111#4 := by
  unfold decodeWith at h
  dsimp only at h
  split at h
  case h_16 =>
    have opcode : (documentOrder cfg w).extractLsb' 12 4 = 0b1111#4 := by
      simp only [imp_false] at *
      bv_omega
    split at h
    case h_3 notCmp notNop =>
      cases h
      exact ⟨rfl, opcode, notCmp, notNop⟩
    all_goals cases h
  all_goals cases h

/-- The reserved case, by the opcode and Nop?. -/
theorem decode_eq_reserved_iff (w v : InstrWord) : decode w = .reserved v ↔
    v = w ∧ w.extractLsb' 12 4 = 0b1111#4 ∧ w.extractLsb' 0 4 ≠ 0b0000#4 ∧ w.extractLsb' 0 4 ≠ 0b1111#4 := by
  constructor
  · exact decodeWith_eq_reserved
  · rintro ⟨rfl, opcode, notCmp, notNop⟩
    obtain ⟨-, -, -, -, -, -, -, -, -, -, -, -, -, -, -, -, -, -, -, hreserved⟩ := opcodeMapDecodes v
    exact hreserved (by rw [and_F000, opcode]; rfl) notCmp notNop

/-- Settles O2: the two fields of the reserved case as quotient and remainder of the word. -/
theorem reservedWordsAreExactlyTheUndefinedCompares : Obligations.ReservedWordsAreExactlyTheUndefinedCompares := by
  intro w v
  rw [decode_eq_reserved_iff]
  simp only [← BitVec.toNat_inj, ne_eq, field_toNat, BitVec.toNat_ofNat]
  omega

/-! ### The ignored bits (R62) -/

/-- Settles O6: only the shifts and nop have ignored bits, and these reach neither the amount nor the effect of nop. -/
theorem ignoredBitsDoNotMatter : Obligations.IgnoredBitsDoNotMatter := by
  intro i s
  cases i
  case shl rd rs immflag imm3 | shr rd rs immflag imm3 =>
    cases immflag
    · exact ⟨rfl, rfl, by simpa [wellFormed, shiftFieldsWellFormed, canonical] using eq_comm⟩
    · exact ⟨rfl, rfl, by simpa [wellFormed, shiftFieldsWellFormed, canonical] using eq_comm⟩
  case nop unused => exact ⟨rfl, rfl, by simpa [wellFormed, canonical] using eq_comm⟩
  all_goals exact ⟨rfl, rfl, iff_of_true rfl rfl⟩

/-- Settles O7: each word is decoded by the branch of its opcode. -/
theorem sampleWordsDecode : Obligations.SampleWordsDecode := by
  unfold Obligations.SampleWordsDecode
  decide

end Sys2Proof.Proofs

/-! SUPPORT. The program counter under every width and unit (10_state.md R14, 42_control_flow.md R110). What every
instruction does to pc is said once, as `nextPc`; pc as a number, the branches and the self-loops follow from it. -/

namespace Sys2Proof.Proofs

open Sys2Proof.Machine Sys2Proof.Safety

variable {xlen pcw : Nat}

/-! ### load and store on either side of DMEM_WORDS (R35) -/

section

variable {cfg : Config xlen pcw} {s t : State.Of xlen pcw} {r base : Reg} {off4 : BitVec 4}

theorem execWith_load_of_lt (h : (effectiveAddress cfg s base off4).toNat < cfg.dmemWords) :
    execWith cfg (.load r base off4) s =
      .next (advance cfg (writeReg s r (dataWord cfg s (effectiveAddress cfg s base off4)))) := by
  simp [execWith, loadWith, readData, h]

theorem execWith_load_of_not_lt (h : ¬(effectiveAddress cfg s base off4).toNat < cfg.dmemWords) :
    execWith cfg (.load r base off4) s = .fault (.absentDataWord (effectiveAddress cfg s base off4).toNat) := by
  simp [execWith, loadWith, readData, h]

theorem execWith_store_of_lt (h : (effectiveAddress cfg s base off4).toNat < cfg.dmemWords) :
    execWith cfg (.store r base off4) s =
      .next (advance cfg (placeData s (effectiveAddress cfg s base off4) (readReg s r))) := by
  simp [execWith, storeWith, writeData, h]

theorem execWith_store_of_not_lt (h : ¬(effectiveAddress cfg s base off4).toNat < cfg.dmemWords) :
    execWith cfg (.store r base off4) s = .fault (.absentDataWord (effectiveAddress cfg s base off4).toNat) := by
  simp [execWith, storeWith, writeData, h]

/-- A load that answers a next state has read the word. -/
theorem eq_of_execWith_load (h : execWith cfg (.load r base off4) s = .next t) :
    t = advance cfg (writeReg s r (dataWord cfg s (effectiveAddress cfg s base off4))) := by
  by_cases present : (effectiveAddress cfg s base off4).toNat < cfg.dmemWords
  · rw [execWith_load_of_lt present] at h
    cases h
    rfl
  · rw [execWith_load_of_not_lt present] at h
    cases h

/-- A store that answers a next state has placed the word. -/
theorem eq_of_execWith_store (h : execWith cfg (.store r base off4) s = .next t) :
    t = advance cfg (placeData s (effectiveAddress cfg s base off4) (readReg s r)) := by
  by_cases present : (effectiveAddress cfg s base off4).toNat < cfg.dmemWords
  · rw [execWith_store_of_lt present] at h
    cases h
    rfl
  · rw [execWith_store_of_not_lt present] at h
    cases h

end

/-! ### pc after an instruction -/

/-- The pc that a conditional branch leaves. -/
def branchPc (cfg : Config xlen pcw) (s : State.Of xlen pcw) (taken : Bool) (off12 : BitVec 12) : PC pcw :=
  if taken then target cfg s.pc (branchOffset cfg off12) else s.pc + BitVec.ofNat pcw cfg.unitsPerInstr

/-- The pc that an instruction leaves, where it completes. -/
def nextPc (cfg : Config xlen pcw) (s : State.Of xlen pcw) : Instr → PC pcw
  | .jmp off12 => target cfg s.pc (jumpOffset off12)
  | .brz off12 => branchPc cfg s s.zFlag off12
  | .brnz off12 => branchPc cfg s (!s.zFlag) off12
  | .brns off12 => branchPc cfg s (!s.sFlag) off12
  | _ => s.pc + BitVec.ofNat pcw cfg.unitsPerInstr

theorem branchWith_eq (cfg : Config xlen pcw) (taken : Bool) (off12 : BitVec 12) (s : State.Of xlen pcw) :
    branchWith cfg taken off12 s = .next (jumpTo s (branchPc cfg s taken off12)) := by
  cases taken <;> rfl

theorem execWith_pc {cfg : Config xlen pcw} {i : Instr} {s t : State.Of xlen pcw} (h : execWith cfg i s = .next t) :
    t.pc = nextPc cfg s i := by
  cases i
  case load => rw [eq_of_execWith_load h]; rfl
  case store => rw [eq_of_execWith_store h]; rfl
  case brz | brnz | brns =>
    cases (branchWith_eq ..).symm.trans h
    rfl
  all_goals
    cases h
    rfl

theorem exec_pc {i : Instr} {s t : State} (h : exec i s = .next t) : t.pc = nextPc params s i :=
  execWith_pc ((execWith_params i s).trans h)

/-! ### pc as a number -/

/-- One instruction on is the number of its pc units on, modulo 2^PCW (R14, R15). -/
theorem advanced_pc_toNat_eq_emod (pc : PC pcw) (units : Nat) :
    ((pc + BitVec.ofNat pcw units).toNat : Int) = ((pc.toNat : Int) + units) % 2 ^ pcw := by
  rw [BitVec.toNat_add, BitVec.toNat_ofNat, Nat.add_mod_mod]
  norm_cast

/-- The target of a taken branch, its offset signed or not (R56, R110). -/
theorem branchTarget_toNat_eq_emod (cfg : Config xlen pcw) (hpcw : 12 ≤ pcw) (pc : PC pcw) (off12 : BitVec 12) :
    ((target cfg pc (branchOffset cfg off12)).toNat : Int) =
      ((pc.toNat : Int) + cfg.branchBase.toNat + (if cfg.brOffsetSigned = true then off12.toInt else off12.toNat)) %
        2 ^ pcw := by
  unfold branchOffset
  split
  case isTrue => rw [target_toNat_eq_emod, BitVec.toInt_signExtend_of_le hpcw]
  case isFalse =>
    rw [target, BitVec.toNat_add, BitVec.toNat_add, Nat.mod_add_mod, BitVec.toNat_setWidth_of_le hpcw]
    norm_cast

/-- The pc after a branch that is taken on a condition. -/
theorem branchPc_toNat_eq_emod (cfg : Config xlen pcw) (hpcw : 12 ≤ pcw) (s : State.Of xlen pcw) {taken : Bool} {c : Prop}
    [Decidable c] (hc : taken = true ↔ c) (off12 : BitVec 12) : ((branchPc cfg s taken off12).toNat : Int) =
      (if c then (s.pc.toNat : Int) + cfg.branchBase.toNat +
          (if cfg.brOffsetSigned = true then off12.toInt else off12.toNat)
        else s.pc.toNat + cfg.unitsPerInstr) % 2 ^ pcw := by
  simp only [branchPc, hc]
  split
  · exact branchTarget_toNat_eq_emod cfg hpcw ..
  · exact advanced_pc_toNat_eq_emod ..

/-- Settles O59: `nextPc` as a number, case by case; a pc inside an instruction fetches no word. -/
theorem pcUnderEveryWidthAndUnit : Obligations.PcUnderEveryWidthAndUnit := by
  rintro P ⟨-, hpcw, -, -⟩
  refine ⟨fun s inside => ?_, fun i s t h => ?_⟩
  · rw [stepWith, instrAt_misaligned P.config s inside]
  · rw [execWith_pc h]
    cases i
    case jmp off12 => exact (target_toNat_eq_emod ..).trans (by rw [jumpOffset_toInt hpcw])
    case brz off12 => exact branchPc_toNat_eq_emod P.config hpcw s Iff.rfl off12
    case brnz off12 => exact branchPc_toNat_eq_emod P.config hpcw s (by simp) off12
    case brns off12 => exact branchPc_toNat_eq_emod P.config hpcw s (by simp) off12
    all_goals exact advanced_pc_toNat_eq_emod ..

/-! ### pc on this machine -/

theorem branchPc_params (s : State) {taken : Bool} {c : Prop} [Decidable c] (hc : taken = true ↔ c) (off12 : BitVec 12) :
    branchPc params s taken off12 = if c then s.pc + off12.signExtend 16 else s.pc + 1 := by
  simp only [branchPc, hc, target_params, branchOffset_params]
  rfl

/-- A branch of this machine: BRANCH_BASE is 0, the offset is signed, an instruction is one pc unit. -/
theorem branchPc_params_toNat (s : State) {taken : Bool} {c : Prop} [Decidable c] (hc : taken = true ↔ c)
    (off12 : BitVec 12) : ((branchPc params s taken off12).toNat : Int) =
      (if c then (s.pc.toNat : Int) + off12.toInt else s.pc.toNat + 1) % 2 ^ 16 := by
  simpa using branchPc_toNat_eq_emod params (by decide) s hc off12

/-- Settles O33: `nextPc` as a number, at the parameters of this machine. -/
theorem pcAdvancesUnlessJumping : Obligations.PcAdvancesUnlessJumping := by
  intro i s t h
  rw [exec_pc h]
  cases i
  case jmp off12 => simpa [nextPc, jumpOffset_toInt] using target_toNat_eq_emod params s.pc (jumpOffset off12)
  case brz off12 => exact branchPc_params_toNat s Iff.rfl off12
  case brnz off12 =>
    have pc := branchPc_params_toNat s (taken := !s.zFlag) (c := ¬s.zFlag = true) (by simp) off12
    rw [ite_not] at pc
    exact pc
  case brns off12 =>
    have pc := branchPc_params_toNat s (taken := !s.sFlag) (c := ¬s.sFlag = true) (by simp) off12
    rw [ite_not] at pc
    exact pc
  all_goals exact advanced_pc_toNat_eq_emod s.pc 1

/-! ### The conditional branches -/

/-- Settles O22: brz is the branch taken on Z, and a branch only moves pc. -/
theorem brzBranchesOnZeroSet : Obligations.BrzBranchesOnZeroSet := fun off12 s =>
  ⟨_, branchWith_eq params s.zFlag off12 s, branchPc_params_toNat s Iff.rfl off12, jumpTo_frame ..⟩

/-- Settles O23: brnz is the branch taken on the negation of Z, and a branch only moves pc. -/
theorem brnzBranchesOnZeroClear : Obligations.BrnzBranchesOnZeroClear := fun off12 s =>
  ⟨_, branchWith_eq params (!s.zFlag) off12 s, branchPc_params_toNat s (by simp) off12, jumpTo_frame ..⟩

/-- Settles O24: brns is the branch taken on the negation of S, and a branch only moves pc. -/
theorem brnsBranchesOnSpecificClear : Obligations.BrnsBranchesOnSpecificClear := fun off12 s =>
  ⟨_, branchWith_eq params (!s.sFlag) off12 s, branchPc_params_toNat s (by simp) off12, jumpTo_frame ..⟩

/-- Settles O45: cmp leaves in Z whether the operands are equal and in S whether the first is below the second. -/
theorem compareThenBranch : Obligations.CompareThenBranch := by
  intro rs1 rs2 off12 s
  have equal := zeroFlag_sub_iff (readReg s rs1) (readReg s rs2)
  have differ : (!zeroFlag (readReg s rs1 - readReg s rs2)) = true ↔ readReg s rs1 ≠ readReg s rs2 := by
    rw [Bool.not_eq_true', Bool.eq_false_iff, ne_eq, equal]
  have notBelow : (!subBorrow (readReg s rs1) (readReg s rs2)) = true ↔ (readReg s rs2).toNat ≤ (readReg s rs1).toNat := by
    rw [Bool.not_eq_true', Bool.eq_false_iff, ne_eq, subBorrow_eq_true, Nat.not_lt]
  exact ⟨_, exec_cmp s rs1 rs2, ⟨_, branchWith_eq .., branchPc_params _ equal off12⟩,
    ⟨_, branchWith_eq .., branchPc_params _ differ off12⟩, ⟨_, branchWith_eq .., branchPc_params _ notBelow off12⟩⟩

/-- Settles O47: Z and S are those of one difference, which is not zero where it borrows. -/
theorem zeroAndBorrowNeverTogether : Obligations.ZeroAndBorrowNeverTogether := by
  intro rd rs1 rs2 s t h
  rcases h with h | h
  · cases (exec_sub s rd rs1 rs2).symm.trans h
    exact not_zeroFlag_and_subBorrow _ _
  · cases (exec_cmp s rs1 rs2).symm.trans h
    exact not_zeroFlag_and_subBorrow _ _

/-! ### What a step runs -/

/-- A word decodes to an instruction exactly when it is that instruction's encoding. -/
theorem decode_eq_instr_iff (w : InstrWord) (i : Instr) : decode w = .instr i ↔ w = encode i :=
  ⟨fun h => (encodeDecodeRoundTrip w i h).symm, fun h => h ▸ decodeEncodeRoundTrip i⟩

/-- The default parameters but for BRANCH_BASE. -/
abbrev withBase (base : PC) : Config 16 16 := { params with branchBase := base }

theorem stepWith_withBase_eq_next_iff (base : PC) (s t : State) : stepWith (withBase base) s = .next t ↔
    ∃ i, instrAt params s s.pc = some (encode i) ∧ execWith (withBase base) i s = .next t := by
  constructor
  · intro h
    unfold stepWith at h
    split at h
    case h_1 => cases h
    case h_2 w fetched =>
      split at h
      case h_1 => cases h
      case h_2 i decoded => exact ⟨i, (decode_eq_instr_iff w i).1 decoded ▸ fetched, h⟩
  · rintro ⟨i, fetched, h⟩
    have fetched' : instrAt (withBase base) s s.pc = some (encode i) := fetched
    have decoded : decodeWith (withBase base) (encode i) = .instr i := decodeEncodeRoundTrip i
    rw [stepWith, fetched']
    simpa only [decoded] using h

/-! ### The self-loops (70_reset_and_hazards.md R154) -/

/-- Sign extension loses no bit. -/
theorem signExtend_inj {n m : Nat} (h : n ≤ m) {x y : BitVec n} : x.signExtend m = y.signExtend m ↔ x = y := by
  rw [← BitVec.toInt_inj, BitVec.toInt_signExtend_of_le h, BitVec.toInt_signExtend_of_le h, BitVec.toInt_inj]

/-- An instruction that leaves pc where it is, given the offset that leads a jump back to itself. -/
def StaysWith (off12 : BitVec 12) (s : State) (i : Instr) : Prop :=
  i = .jmp off12 ∨ (i = .brz off12 ∧ s.zFlag = true) ∨ (i = .brnz off12 ∧ s.zFlag = false) ∨
    (i = .brns off12 ∧ s.sFlag = false)

section

variable {base : PC} {back : BitVec 12} (hback : base + back.signExtend 16 = 0)

include hback

theorem target_eq_self_iff (pc : PC) (off12 : BitVec 12) :
    target (withBase base) pc (off12.signExtend 16) = pc ↔ off12 = back := by
  rw [target, BitVec.add_assoc, add_eq_left, ← hback, add_right_inj, signExtend_inj (by decide)]

theorem branchPc_eq_self_iff (s : State) (taken : Bool) (off12 : BitVec 12) :
    branchPc (withBase base) s taken off12 = s.pc ↔ off12 = back ∧ taken = true := by
  cases taken
  · simp [branchPc]
  · simpa [branchPc, branchOffset] using target_eq_self_iff hback s.pc off12

theorem nextPc_eq_self_iff (s : State) (i : Instr) : nextPc (withBase base) s i = s.pc ↔ StaysWith back s i := by
  cases i
  case jmp off12 => simpa [nextPc, jumpOffset, StaysWith] using target_eq_self_iff hback s.pc off12
  case brz off12 => simpa [nextPc, StaysWith] using branchPc_eq_self_iff hback s s.zFlag off12
  case brnz off12 => simpa [nextPc, StaysWith] using branchPc_eq_self_iff hback s (!s.zFlag) off12
  case brns off12 => simpa [nextPc, StaysWith] using branchPc_eq_self_iff hback s (!s.sFlag) off12
  all_goals simp [nextPc, StaysWith]

/-- An instruction maps a state to itself exactly where it leaves pc as it is: the jumps and the branches write nothing
else, and every other instruction moves pc on. -/
theorem execWith_eq_self_iff (s : State) (i : Instr) :
    execWith (withBase base) i s = .next s ↔ StaysWith back s i := by
  refine ⟨fun h => (nextPc_eq_self_iff hback s i).1 (execWith_pc h).symm, fun h => ?_⟩
  have stays := (nextPc_eq_self_iff hback s i).2 h
  rcases h with rfl | ⟨rfl, -⟩ | ⟨rfl, -⟩ | ⟨rfl, -⟩
  · exact congrArg (fun pc => Host.Outcome.next (jumpTo s pc)) stays
  all_goals exact (branchWith_eq ..).trans (congrArg (fun pc => Host.Outcome.next (jumpTo s pc)) stays)

/-- The self-loops of a machine, by the word at pc: the words that encode the four jumps back. -/
theorem stepWith_eq_self_iff (s : State) : stepWith (withBase base) s = .next s ↔
    instrAt params s s.pc = some (encode (.jmp back)) ∨
    (instrAt params s s.pc = some (encode (.brz back)) ∧ s.zFlag = true) ∨
    (instrAt params s s.pc = some (encode (.brnz back)) ∧ s.zFlag = false) ∨
    (instrAt params s s.pc = some (encode (.brns back)) ∧ s.sFlag = false) := by
  calc stepWith (withBase base) s = .next s
      ↔ ∃ i, instrAt params s s.pc = some (encode i) ∧ execWith (withBase base) i s = .next s :=
        stepWith_withBase_eq_next_iff base s s
    _ ↔ ∃ i, instrAt params s s.pc = some (encode i) ∧ StaysWith back s i := by
        simp only [execWith_eq_self_iff hback]
    _ ↔ _ := by
        constructor
        · rintro ⟨i, fetched, rfl | ⟨rfl, z⟩ | ⟨rfl, z⟩ | ⟨rfl, o⟩⟩
          exacts [.inl fetched, .inr (.inl ⟨fetched, z⟩), .inr (.inr (.inl ⟨fetched, z⟩)), .inr (.inr (.inr ⟨fetched, o⟩))]
        · rintro (fetched | ⟨fetched, z⟩ | ⟨fetched, z⟩ | ⟨fetched, o⟩)
          exacts [⟨_, fetched, .inl rfl⟩, ⟨_, fetched, .inr (.inl ⟨rfl, z⟩)⟩, ⟨_, fetched, .inr (.inr (.inl ⟨rfl, z⟩))⟩,
            ⟨_, fetched, .inr (.inr (.inr ⟨rfl, o⟩))⟩]

end

/-- Settles O42: BRANCH_BASE is 0, so the jumps back have offset 0. -/
theorem quiescentStatesAreSelfLoops : Obligations.QuiescentStatesAreSelfLoops := by
  intro s
  rw [Quiescent, ← stepWith_params]
  exact stepWith_eq_self_iff (base := 0) (back := 0) (by decide) s

/-- Settles O43: BRANCH_BASE is 1, so the jumps back have offset -1. -/
theorem quiescentStatesUnderBranchBaseOne : Obligations.QuiescentStatesUnderBranchBaseOne := fun s =>
  stepWith_eq_self_iff (base := 1) (back := 0xFFF) (by decide) s

/-- A run from a state that the step maps to itself stays there. -/
theorem run_eq_self (M : Host.Core) {s : M.State} (h : M.step s = .next s) (k : Nat) : M.run k s = .next s := by
  induction k with
  | zero => rfl
  | succ k ih => simp only [Host.Core.run, h, ih]

/-- Settles O44: such a state is quiescent. -/
theorem selfLoopIsFinal : Obligations.SelfLoopIsFinal := fun s atLoop =>
  run_eq_self core ((quiescentStatesAreSelfLoops s).2 atLoop)

end Sys2Proof.Proofs

/-! SUPPORT. What an instruction writes and what that depends on (10_state.md, the tables under R12 and R17). Each of the
state's updates changes the place it names and no other; the shared end `finishResult` is three of them. A checked run
(D23) then never shows what is unspecified: an instruction's reads are all defined, and what it writes depends on them. -/

namespace Sys2Proof.Proofs

open Sys2Proof.Machine Sys2Proof.Safety

/-! ### Every instruction completes -/

/-- Settles O11: the flag table names the next state of every instruction. -/
theorem everyInstructionCompletes : Obligations.EveryInstructionCompletes := by
  intro i s
  obtain ⟨t, completes, -⟩ := flagTable i s
  exact ⟨t, completes⟩

/-! ### The memories -/

/-- What an instruction can do to the memories: only a store writes, and only a data word. -/
theorem exec_memories {i : Instr} {s t : State} (h : exec i s = .next t) : t.imem = s.imem ∧
    (t.dmem = s.dmem ∨ ∃ rs2 rs1 off4, i = .store rs2 rs1 off4 ∧
      t.dmem = (placeData s (effectiveAddress params s rs1 off4) (readReg s rs2)).dmem) := by
  cases i
  case store rs2 rs1 off4 =>
    cases (exec_store s rs2 rs1 off4).symm.trans h
    exact ⟨rfl, .inr ⟨rs2, rs1, off4, rfl, rfl⟩⟩
  case load rd rs1 off4 =>
    cases (exec_load s rd rs1 off4).symm.trans h
    exact ⟨rfl, .inl rfl⟩
  case brz | brnz | brns =>
    cases (branchWith_eq ..).symm.trans h
    exact ⟨rfl, .inl rfl⟩
  all_goals
    cases h
    exact ⟨rfl, .inl rfl⟩

theorem programUnchanged_of_imem {s t : State} (h : t.imem = s.imem) : ProgramUnchanged s t := fun a => by
  rw [instrAt_params, instrAt_params, h]

/-- Settles O34: a step runs an instruction, and no instruction writes instruction memory. -/
theorem stepNeverChangesProgram : Obligations.StepNeverChangesProgram := by
  intro s t h
  obtain ⟨w, i, -, -, ran⟩ := step_next_cases h
  obtain ⟨program, -⟩ := exec_memories ran
  exact ⟨program, programUnchanged_of_imem program⟩

/-- Settles O36: a step leaves each memory as it is or places one word at an address in range. -/
theorem stepKeepsMemoriesCanonical : Obligations.StepKeepsMemoriesCanonical := by
  rintro s t ⟨programCanonical, dataCanonical⟩ h
  obtain ⟨w, i, -, -, ran⟩ := step_next_cases h
  obtain ⟨program, data | ⟨rs2, rs1, off4, -, data⟩⟩ := exec_memories ran
  · exact ⟨program ▸ programCanonical, data ▸ dataCanonical⟩
  · exact ⟨program ▸ programCanonical, data ▸ placeData_wf dataCanonical _ _⟩

/-- Settles O37: both memories are empty after reset. -/
theorem resetMemoriesCanonical : Obligations.ResetMemoriesCanonical := ⟨reset_imem_wf, reset_dmem_wf⟩

/-- Settles O35: a placed data word leaves every other as it was. -/
theorem onlyStoreChangesData : Obligations.OnlyStoreChangesData := by
  intro i s t h a changed
  obtain ⟨-, data | ⟨rs2, rs1, off4, isStore, data⟩⟩ := exec_memories h
  · exact absurd (by rw [dataWord, dataWord, data]) changed
  · refine ⟨rs2, rs1, off4, isStore, by_contra fun elsewhere => changed ?_⟩
    rw [← dataWord_placeData_ne params s (readReg s rs2) elsewhere, dataWord, dataWord, data]

/-- Settles O38: store and load name their next states; the word placed is read back at its address only. -/
theorem loadReturnsLastStore : Obligations.LoadReturnsLastStore := by
  refine fun rs2 rs1 off4 s => ⟨_, exec_store s rs2 rs1 off4, fun rd base off => ⟨_, exec_load _ rd base off, ?_⟩⟩
  rw [readReg_advance, readReg_writeReg_self, dataWord_advance]
  split
  case isTrue same => rw [same, dataWord_placeData_self]
  case isFalse elsewhere => exact dataWord_placeData_ne params s _ elsewhere

/-! ### The stops of the step -/

theorem step_of_instr {s : State} {w : InstrWord} {i : Instr} (fetched : instrAt params s s.pc = some w)
    (decoded : decode w = .instr i) : step s = exec i s := by
  simp only [step, fetched, decoded]

/-- Settles O8: the fetched word is decoded and run. -/
theorem stepRunsDecodedInstruction : Obligations.StepRunsDecodedInstruction := fun _ _ _ => step_of_instr

/-- The three things a step can do. -/
theorem step_cases (s : State) :
    (instrAt params s s.pc = none ∧ step s = .fault (.fetchUnloaded s.pc.toNat)) ∨
    (∃ w, instrAt params s s.pc = some w ∧ decode w = .reserved w ∧ step s = .fault (.reservedEncoding w s.pc.toNat)) ∨
    ∃ w i t, instrAt params s s.pc = some w ∧ decode w = .instr i ∧ step s = .next t := by
  rcases fetched : instrAt params s s.pc with _ | w
  case none => exact .inl ⟨rfl, step_of_unloaded fetched⟩
  case some =>
    rcases decoded : decode w with i | v
    case instr =>
      obtain ⟨t, completes⟩ := everyInstructionCompletes i s
      exact .inr (.inr ⟨w, i, t, rfl, decoded, (step_of_instr fetched decoded).trans completes⟩)
    case reserved =>
      obtain ⟨rfl, -⟩ := decodeWith_eq_reserved decoded
      exact .inr (.inl ⟨v, rfl, decoded, step_of_reserved fetched decoded⟩)

/-- The words that decode to the reserved case, as numbers (R61, R125). -/
theorem decode_eq_reserved_self_iff (w : InstrWord) :
    decode w = .reserved w ↔ w.toNat / 4096 = 15 ∧ 1 ≤ w.toNat % 16 ∧ w.toNat % 16 ≤ 14 :=
  (reservedWordsAreExactlyTheUndefinedCompares w w).trans (and_iff_right rfl)

/-- Settles O10: the step stops at the fetch, or at the decoder's reserved case; otherwise it answers a next state. -/
theorem stepStopsExactly : Obligations.StepStopsExactly := by
  intro s
  simp only [← and_assoc (c := _ = Fault.reservedEncoding _ _)]
  rcases step_cases s with ⟨unloaded, stops⟩ | ⟨w, fetched, reserved, stops⟩ | ⟨w, i, t, fetched, decoded, goesOn⟩
  · simp [unloaded, stops, eq_comm]
  · simp [fetched, stops, eq_comm, (decode_eq_reserved_self_iff w).1 reserved]
  · have notReserved : ¬(w.toNat / 4096 = 15 ∧ 1 ≤ w.toNat % 16 ∧ w.toNat % 16 ≤ 14) := by
      rw [← decode_eq_reserved_self_iff, decoded]
      exact Decoded.noConfusion
    simp [fetched, goesOn, notReserved]

/-! ### Flags are read by branches alone -/

/-- Settles O30: each flag is written from other places, or is left as it is; a branch reads one flag and leaves both. -/
theorem flagsReadOnlyByBranches : Obligations.FlagsReadOnlyByBranches := by
  intro i s t z o h
  cases i
  case brz off12 | brnz off12 | brns off12 =>
    cases (branchWith_eq ..).symm.trans h
    exact branchWith_eq ..
  case load rd rs1 off4 =>
    cases (exec_load s rd rs1 off4).symm.trans h
    exact ⟨z, o, exec_load _ rd rs1 off4, .inr ⟨rfl, rfl⟩, .inr ⟨rfl, rfl⟩⟩
  case store rs2 rs1 off4 =>
    cases (exec_store s rs2 rs1 off4).symm.trans h
    exact ⟨z, o, exec_store _ rs2 rs1 off4, .inr ⟨rfl, rfl⟩, .inr ⟨rfl, rfl⟩⟩
  case loadi | jmp | nop =>
    cases h
    exact ⟨z, o, rfl, .inr ⟨rfl, rfl⟩, .inr ⟨rfl, rfl⟩⟩
  case and | or | xor | shl | shr =>
    cases h
    exact ⟨_, o, rfl, .inl rfl, .inr ⟨rfl, rfl⟩⟩
  case add | addi | sub | cmp =>
    cases h
    exact ⟨_, _, rfl, .inl rfl, .inl rfl⟩

/-! ### The places an update changes -/

section

variable (s : State)

theorem valueAt_setSpecific_of_ne (b : Bool) {l : Location} (h : l ≠ .sFlag) :
    valueAt (setSpecific s b) l = valueAt s l := by
  cases l
  case sFlag => exact absurd rfl h
  all_goals rfl

theorem valueAt_setZero_of_ne (r : Word) {l : Location} (h : l ≠ .zFlag) : valueAt (setZero s r) l = valueAt s l := by
  cases l
  case zFlag => exact absurd rfl h
  all_goals rfl

theorem valueAt_writeReg_of_ne (r : Reg) (v : Word) {l : Location} (h : l ≠ .reg r) :
    valueAt (writeReg s r v) l = valueAt s l := by
  cases l
  case reg r' => exact readReg_writeReg_ne s v fun same => h (congrArg _ same)
  all_goals rfl

theorem valueAt_placeData_of_ne (a v : Word) {l : Location} (h : l ≠ .data a) :
    valueAt (placeData s a v) l = valueAt s l := by
  cases l
  case data a' => exact dataWord_placeData_ne params s v fun same => h (congrArg _ same)
  all_goals rfl

theorem valueAt_finishResult_of_ne (rd : Reg) (r : Word) {l : Location} (hrd : l ≠ .reg rd) (hz : l ≠ .zFlag) :
    valueAt (finishResult params s rd r) l = valueAt s l := by
  rw [finishResult, valueAt_advance, valueAt_setZero_of_ne _ _ hz, valueAt_writeReg_of_ne _ _ _ hrd]

end

theorem valueAt_of_not_mem_writes {i : Instr} {s t : State} (h : exec i s = .next t) {l : Location} (hl : l ∉ writes i s) :
    valueAt t l = valueAt s l := by
  cases i
  case add rd _ _ | addi rd _ | sub rd _ _ =>
    cases h
    simp only [writes, List.mem_cons, List.not_mem_nil, or_false, not_or] at hl
    obtain ⟨hrd, hz, hs⟩ := hl
    exact (valueAt_finishResult_of_ne _ rd _ hrd hz).trans (valueAt_setSpecific_of_ne s _ hs)
  case and rd _ _ | or rd _ _ | xor rd _ _ | shl rd _ _ _ | shr rd _ _ _ =>
    cases h
    simp only [writes, List.mem_cons, List.not_mem_nil, or_false, not_or] at hl
    obtain ⟨hrd, hz⟩ := hl
    exact valueAt_finishResult_of_ne s rd _ hrd hz
  case loadi rd imm8 =>
    cases h
    exact (valueAt_advance _ l).trans (valueAt_writeReg_of_ne s rd _ (List.ne_of_not_mem_cons hl))
  case load rd rs1 off4 =>
    cases (exec_load s rd rs1 off4).symm.trans h
    exact (valueAt_advance _ l).trans (valueAt_writeReg_of_ne s rd _ (List.ne_of_not_mem_cons hl))
  case store rs2 rs1 off4 =>
    cases (exec_store s rs2 rs1 off4).symm.trans h
    exact (valueAt_advance _ l).trans (valueAt_placeData_of_ne s _ _ (List.ne_of_not_mem_cons hl))
  case cmp rs1 rs2 =>
    cases h
    simp only [writes, List.mem_cons, List.not_mem_nil, or_false, not_or] at hl
    obtain ⟨hz, hs⟩ := hl
    exact (valueAt_advance _ l).trans ((valueAt_setZero_of_ne _ _ hz).trans (valueAt_setSpecific_of_ne s _ hs))
  case brz | brnz | brns =>
    cases (branchWith_eq ..).symm.trans h
    exact valueAt_jumpTo s _ l
  case jmp =>
    cases h
    exact valueAt_jumpTo s _ l
  case nop =>
    cases h
    exact valueAt_advance s l

/-- Settles O31: a place that is not named keeps its value, and no instruction writes instruction memory. -/
theorem onlyNamedPlacesAreWritten : Obligations.OnlyNamedPlacesAreWritten := fun _ _ _ h =>
  ⟨fun _ => valueAt_of_not_mem_writes h, programUnchanged_of_imem (exec_memories h).1⟩

/-! ### What an instruction writes depends on what it reads -/

section

variable {i : Instr} {s s' : State} (agree : ∀ l ∈ reads i s, valueAt s l = valueAt s' l)

include agree

theorem readReg_eq_of_reads {r : Reg} (h : .reg r ∈ reads i s) : readReg s r = readReg s' r := agree _ h

theorem zFlag_eq_of_reads (h : .zFlag ∈ reads i s) : s.zFlag = s'.zFlag := flagValue_inj.1 (agree _ h)

theorem sFlag_eq_of_reads (h : .sFlag ∈ reads i s) : s.sFlag = s'.sFlag := flagValue_inj.1 (agree _ h)

theorem shiftAmount_eq_of_reads {rs : Reg} {immflag : Bool} {imm3 : BitVec 3} (h : immflag = false → .reg rs ∈ reads i s) :
    shiftAmount s rs immflag imm3 = shiftAmount s' rs immflag imm3 := by
  cases immflag
  · exact congrArg BitVec.toNat (readReg_eq_of_reads agree (h rfl))
  · rfl

/-- The table of reads decides which places are written: only the address of a store is not fixed. -/
theorem writes_eq_of_reads : writes i s = writes i s' := by
  cases i
  case store rs2 rs1 off4 =>
    simp only [writes, effectiveAddress_congr (readReg_eq_of_reads agree (r := rs1) (by simp [reads]))]
  all_goals rfl

theorem nextPc_eq_of_reads (hpc : s.pc = s'.pc) : nextPc params s i = nextPc params s' i := by
  cases i
  case brz => simp only [nextPc, branchPc, hpc, zFlag_eq_of_reads agree (by simp [reads])]
  case brnz => simp only [nextPc, branchPc, hpc, zFlag_eq_of_reads agree (by simp [reads])]
  case brns => simp only [nextPc, branchPc, hpc, sFlag_eq_of_reads agree (by simp [reads])]
  all_goals simp only [nextPc, hpc]

theorem valueAt_eq_of_reads {t t' : State} (h : exec i s = .next t) (h' : exec i s' = .next t') :
    ∀ l ∈ writes i s, valueAt t l = valueAt t' l := by
  cases i
  case add rd rs1 rs2 | sub rd rs1 rs2 | and rd rs1 rs2 | or rd rs1 rs2 | xor rd rs1 rs2 | cmp rs1 rs2 =>
    have first := readReg_eq_of_reads agree (r := rs1) (by simp [reads])
    have second := readReg_eq_of_reads agree (r := rs2) (by simp [reads])
    cases h
    cases h'
    simp [writes, first, second]
  case addi rd imm8 =>
    have old := readReg_eq_of_reads agree (r := rd) (by simp [reads])
    cases h
    cases h'
    simp [writes, old]
  case shl rd rs immflag imm3 | shr rd rs immflag imm3 =>
    have old := readReg_eq_of_reads agree (r := rd) (by cases immflag <;> simp [reads])
    have amount : shiftAmount s rs immflag imm3 = shiftAmount s' rs immflag imm3 :=
      shiftAmount_eq_of_reads agree fun register => by simp [reads, register]
    cases h
    cases h'
    simp [writes, old, amount]
  case loadi rd imm8 =>
    cases h
    cases h'
    simp [writes]
  case load rd rs1 off4 =>
    have address := effectiveAddress_congr (readReg_eq_of_reads agree (r := rs1) (by simp [reads])) off4
    have word : dataWord params s _ = dataWord params s' _ :=
      agree (.data (effectiveAddress params s rs1 off4)) (by simp [reads])
    cases (exec_load s rd rs1 off4).symm.trans h
    cases (exec_load s' rd rs1 off4).symm.trans h'
    simp [writes, ← address, word]
  case store rs2 rs1 off4 =>
    have address := effectiveAddress_congr (readReg_eq_of_reads agree (r := rs1) (by simp [reads])) off4
    have stored := readReg_eq_of_reads agree (r := rs2) (by simp [reads])
    cases (exec_store s rs2 rs1 off4).symm.trans h
    cases (exec_store s' rs2 rs1 off4).symm.trans h'
    simp [writes, ← address, stored]
  all_goals simp [writes]

end

/-- Settles O32: the three things said of reads, at one instruction. -/
theorem onlyNamedPlacesAreRead : Obligations.OnlyNamedPlacesAreRead := fun _ _ _ _ _ hpc agree h h' =>
  ⟨writes_eq_of_reads agree, (exec_pc h).trans ((nextPc_eq_of_reads agree hpc).trans (exec_pc h').symm),
    valueAt_eq_of_reads agree h h'⟩

/-! ### The checked machine (D23) -/

theorem checkedStep_of_instr {defined : List Location} {s : State} {w : InstrWord} {i : Instr}
    (fetched : instrAt params s s.pc = some w) (decoded : decode w = .instr i) :
    checkedStep defined s = checkedExec defined i s := by
  simp only [checkedStep, fetched, decoded]

theorem checkedExec_of_undefined {defined : List Location} {i : Instr} {s : State} {l : Location}
    (h : firstUnspecified defined i s = some l) : checkedExec defined i s = .stop (.unspecifiedRead l) := by
  simp only [checkedExec, h]

theorem checkedExec_of_defined {defined : List Location} {i : Instr} {s t : State}
    (h : firstUnspecified defined i s = none) (ran : exec i s = .next t) :
    checkedExec defined i s = .next (writes i s ++ defined) t := by
  simp only [checkedExec, h, ran]

theorem checkedStep_of_unloaded {s : State} (defined : List Location) (h : instrAt params s s.pc = none) :
    checkedStep defined s = .stop (.machine (.fetchUnloaded s.pc.toNat)) := by
  simp only [checkedStep, h]

theorem checkedStep_of_reserved {s : State} (defined : List Location) {w v : InstrWord}
    (fetched : instrAt params s s.pc = some w) (decoded : decode w = .reserved v) :
    checkedStep defined s = .stop (.machine (.reservedEncoding v s.pc.toNat)) := by
  simp only [checkedStep, fetched, decoded]

/-- Settles O52: the checked machine goes on only past a decoded instruction, and then runs it. -/
theorem checkedStepRefinesStep : Obligations.CheckedStepRefinesStep := by
  intro defined defined' s t h
  rcases step_cases s with ⟨unloaded, -⟩ | ⟨w, fetched, reserved, -⟩ | ⟨w, i, t', fetched, decoded, goesOn⟩
  · rw [checkedStep_of_unloaded defined unloaded] at h
    cases h
  · rw [checkedStep_of_reserved defined fetched reserved] at h
    cases h
  · have ran := (step_of_instr fetched decoded).symm.trans goesOn
    rw [checkedStep_of_instr fetched decoded] at h
    rcases first : firstUnspecified defined i s with _ | l
    · cases (checkedExec_of_defined first ran).symm.trans h
      exact goesOn
    · cases (checkedExec_of_undefined first).symm.trans h

/-- The first place read that nothing has defined, in the order of the reads. -/
theorem firstUnspecified_eq_some_iff {defined : List Location} {i : Instr} {s : State} {l : Location} :
    firstUnspecified defined i s = some l ↔
      ∃ before after, reads i s = before ++ l :: after ∧ (∀ x ∈ before, x ∈ defined) ∧ l ∉ defined := by
  simp only [firstUnspecified, List.find?_eq_some_iff_append, Bool.not_eq_true', decide_eq_true_eq,
    decide_eq_false_iff_not, not_not]
  constructor
  · rintro ⟨isUndefined, before, after, order, allBefore⟩
    exact ⟨before, after, order, allBefore, isUndefined⟩
  · rintro ⟨before, after, order, allBefore, isUndefined⟩
    exact ⟨isUndefined, before, after, order, allBefore⟩

/-- Settles O53: at a decoded instruction the stop is `firstUnspecified`. -/
theorem checkedStepStopsAtUnspecifiedRead : Obligations.CheckedStepStopsAtUnspecifiedRead := by
  intro defined s w i l fetched decoded
  rw [← firstUnspecified_eq_some_iff, checkedStep_of_instr fetched decoded]
  rcases first : firstUnspecified defined i s with _ | k
  · obtain ⟨t, ran⟩ := everyInstructionCompletes i s
    simp [checkedExec_of_defined first ran]
  · simp [checkedExec_of_undefined first]

theorem mem_defined_of_firstUnspecified {defined : List Location} {i : Instr} {s : State}
    (h : firstUnspecified defined i s = none) : ∀ l ∈ reads i s, l ∈ defined := by
  simpa [firstUnspecified] using h

/-- The first undefined read is the same in states that agree: the address of a load counts only where its base is
defined. -/
theorem firstUnspecified_congr {defined : List Location} {s s' : State} (agree : AgreeOn defined s s') (i : Instr) :
    firstUnspecified defined i s = firstUnspecified defined i s' := by
  obtain ⟨-, -, places⟩ := agree
  cases i
  case load rd rs1 off4 =>
    by_cases base : Location.reg rs1 ∈ defined
    · simp only [firstUnspecified, reads, effectiveAddress_congr (places _ base)]
    · simp [firstUnspecified, reads, base]
  all_goals rfl

/-- What runs in both states leaves them agreeing: a place defined afterwards is written from defined places, or was defined
before and is left as it was. -/
theorem agreeOn_exec {defined : List Location} {i : Instr} {s s' t t' : State} (agree : AgreeOn defined s s')
    (allDefined : firstUnspecified defined i s = none) (ran : exec i s = .next t) (ran' : exec i s' = .next t') :
    writes i s = writes i s' ∧ AgreeOn (writes i s ++ defined) t t' := by
  obtain ⟨samePc, sameProgram, samePlaces⟩ := agree
  obtain ⟨sameWrites, samePc', written⟩ := onlyNamedPlacesAreRead i s s' t t' samePc
    (fun l hl => samePlaces l (mem_defined_of_firstUnspecified allDefined l hl)) ran ran'
  obtain ⟨kept, program⟩ := onlyNamedPlacesAreWritten i s t ran
  obtain ⟨kept', program'⟩ := onlyNamedPlacesAreWritten i s' t' ran'
  refine ⟨sameWrites, samePc', fun a => by rw [program, program', sameProgram], fun l hl => ?_⟩
  by_cases isWritten : l ∈ writes i s
  · exact written l isWritten
  · have wasDefined := (List.mem_append.1 hl).resolve_left isWritten
    rw [kept l isWritten, kept' l (sameWrites ▸ isWritten), samePlaces l wasDefined]

/-- Settles O54: both states stop at the fetch or the decoder alike, or run one instruction, whose reads are undefined in
both or in neither. -/
theorem checkedStepHidesUnspecifiedState : Obligations.CheckedStepHidesUnspecifiedState := by
  intro defined s s' agree
  obtain ⟨samePc, sameProgram, -⟩ := id agree
  have sameFetch : instrAt params s' s'.pc = instrAt params s s.pc := by rw [sameProgram, samePc]
  rcases step_cases s with ⟨unloaded, -⟩ | ⟨w, fetched, reserved, -⟩ | ⟨w, i, t, fetched, decoded, goesOn⟩
  case inl =>
    refine .inl ⟨_, checkedStep_of_unloaded defined unloaded, ?_⟩
    rw [samePc]
    exact checkedStep_of_unloaded defined (sameFetch.trans unloaded)
  case inr.inl =>
    refine .inl ⟨_, checkedStep_of_reserved defined fetched reserved, ?_⟩
    rw [samePc]
    exact checkedStep_of_reserved defined (sameFetch.trans fetched) reserved
  case inr.inr =>
    rw [checkedStep_of_instr fetched decoded, checkedStep_of_instr (sameFetch.trans fetched) decoded]
    have sameRead := firstUnspecified_congr agree i
    have ran := (step_of_instr fetched decoded).symm.trans goesOn
    obtain ⟨t', ran'⟩ := everyInstructionCompletes i s'
    rcases first : firstUnspecified defined i s with _ | l
    · obtain ⟨sameWrites, agree'⟩ := agreeOn_exec agree first ran ran'
      refine .inr ⟨_, t, t', checkedExec_of_defined first ran, ?_, agree'⟩
      rw [sameWrites]
      exact checkedExec_of_defined (sameRead.symm.trans first) ran'
    · exact .inl ⟨_, checkedExec_of_undefined first, checkedExec_of_undefined (sameRead.symm.trans first)⟩

end Sys2Proof.Proofs

/-! SUPPORT. The parametric machine (00_scope.md R5): sums, differences and addresses as numbers at every width, and the
parts of it that one parameter alone decides. What add and addi do on this machine is read off the same sums. -/

namespace Sys2Proof.Proofs

open Sys2Proof.Machine Sys2Proof.Safety

variable {xlen pcw : Nat}

/-! ### Sums and differences as numbers -/

/-- A sum with a signed second operand, modulo 2^n. -/
theorem add_toNat_eq_emod_toInt {n : Nat} (a b : BitVec n) : ((a + b).toNat : Int) = ((a.toNat : Int) + b.toInt) % 2 ^ n := by
  rw [← Int.add_emod_emod, toInt_emod_two_pow, BitVec.toNat_add]
  norm_cast

/-- A difference modulo 2^n. -/
theorem sub_toNat_eq_emod_two_pow {n : Nat} (a b : BitVec n) :
    ((a - b).toNat : Int) = ((a.toNat : Int) - b.toNat) % 2 ^ n := by
  have shifted : ((2 ^ n - b.toNat + a.toNat : Nat) : Int) = (a.toNat : Int) - b.toNat + 2 ^ n := by
    rw [Nat.cast_add, Nat.cast_sub b.isLt.le]
    push_cast
    ring
  rw [BitVec.toNat_sub, Int.natCast_emod, shifted]
  push_cast
  exact Int.add_emod_right ..

/-- The signed immediate at every width of at least 8 bits (R54). -/
theorem immOperand_toInt (hxlen : 8 ≤ xlen) (imm8 : BitVec 8) : (immOperand imm8 : Word xlen).toInt = imm8.toInt :=
  BitVec.toInt_signExtend_of_le hxlen

theorem add_immOperand_toNat_eq_emod (hxlen : 8 ≤ xlen) (a : Word xlen) (imm8 : BitVec 8) :
    ((a + immOperand imm8).toNat : Int) = ((a.toNat : Int) + imm8.toInt) % 2 ^ xlen := by
  rw [add_toNat_eq_emod_toInt, immOperand_toInt hxlen]

/-- The effective address, its offset signed or not (R36, R55). -/
theorem effectiveAddress_toNat_eq_emod (cfg : Config xlen pcw) (hxlen : 8 ≤ xlen) (s : State.Of xlen pcw) (base : Reg)
    (off4 : BitVec 4) : ((effectiveAddress cfg s base off4).toNat : Int) =
      ((readReg s base).toNat + if cfg.lsOffsetSigned = true then off4.toInt else off4.toNat) % 2 ^ xlen := by
  have width : 4 ≤ xlen := by omega
  unfold effectiveAddress memOffset
  split
  case isTrue => rw [add_toNat_eq_emod_toInt, BitVec.toInt_signExtend_of_le width]
  case isFalse =>
    rw [BitVec.toNat_add, BitVec.toNat_setWidth_of_le width]
    norm_cast

/-! ### Registers under every width -/

/-- Settles O56: the four instructions store the sum, the difference or the immediate, and Z follows what is stored. -/
theorem arithmeticUnderEveryWidth : Obligations.ArithmeticUnderEveryWidth := by
  rintro P ⟨hxlen, -, -, -⟩ rd rs1 rs2 imm8 s
  refine ⟨⟨_, rfl, finishResult_zFlag_iff .., ?add⟩, ⟨_, rfl, finishResult_zFlag_iff .., ?sub⟩,
    ⟨_, rfl, finishResult_zFlag_iff .., ?addi⟩, ⟨_, rfl, ?loadi⟩⟩
  case add => rw [readReg_finishResult_self, BitVec.toNat_add]
  case sub => rw [readReg_finishResult_self, sub_toNat_eq_emod_two_pow]
  case addi => rw [readReg_finishResult_self, add_immOperand_toNat_eq_emod hxlen]
  case loadi => rw [readReg_advance, readReg_writeReg_self, immOperand_toInt hxlen]

/-- Settles O57: the two sides of the amount XLEN are the two cases of `shiftLeft` and `shiftRight`. -/
theorem shiftsUnderEveryWidth : Obligations.ShiftsUnderEveryWidth := by
  rintro P - rd rs immflag imm3 s amt hamt
  have amount : shiftAmount s rs immflag imm3 = amt := hamt.symm
  refine ⟨⟨_, rfl, fun small => ?_, fun big => ?_⟩, ⟨_, rfl, fun small => ?_, fun big => ?_⟩⟩
  · rw [readReg_finishResult_self, amount, shiftLeft_toNat_of_lt P.config _ small]
  · rw [readReg_finishResult_self, amount, shiftLeft_of_not_lt P.config _ big.not_gt]
  · rw [readReg_finishResult_self, amount, shiftRight_toNat_of_lt P.config _ small]
  · rw [readReg_finishResult_self, amount, shiftRight_of_not_lt P.config _ big.not_gt]

/-! ### load and store under every parameter -/

/-- Settles O58: the address is the effective address, whose word load reads and store replaces. -/
theorem loadAndStoreUnderEveryWidth : Obligations.LoadAndStoreUnderEveryWidth := by
  rintro P ⟨hxlen, -, -, -⟩ r base off4 s addr haddr present
  have address : effectiveAddress P.config s base off4 = addr := by
    apply BitVec.eq_of_toNat_eq
    exact_mod_cast (effectiveAddress_toNat_eq_emod P.config hxlen s base off4).trans haddr.symm
  rw [← address] at present ⊢
  refine ⟨⟨_, execWith_load_of_lt present, ?_⟩, ⟨_, execWith_store_of_lt present, fun a => ?_⟩⟩
  · rw [readReg_advance, readReg_writeReg_self]
  · rw [dataWord_advance]
    split
    case isTrue same => rw [same, dataWord_placeData_self]
    case isFalse elsewhere => exact dataWord_placeData_ne P.config s _ elsewhere

/-- Settles O51: load and store ask DMEM_WORDS and nothing else. -/
theorem absentDataWordsStopLoadAndStore : Obligations.AbsentDataWordsStopLoadAndStore := by
  intro xlen pcw cfg r base off4 s
  split
  case isTrue present => exact ⟨⟨_, execWith_load_of_lt present⟩, ⟨_, execWith_store_of_lt present⟩⟩
  case isFalse absent => exact ⟨execWith_load_of_not_lt absent, execWith_store_of_not_lt absent⟩

/-! ### A store and the fetch under either organisation of memory (R40, R41) -/

theorem instrAt_placeData_of_harvard {cfg : Config xlen pcw} (h : cfg.memOrg = .harvard) (s : State.Of xlen pcw)
    (a v : Word xlen) (p : PC pcw) : instrAt cfg (placeData s a v) p = instrAt cfg s p := by
  simp only [instrAt, programWord, h, placeData_imem]

/-- In the one memory of words as wide as an instruction, the word placed is the instruction at its address. -/
theorem instrAt_placeData_of_unified {cfg : Config 16 pcw} (h : cfg.memOrg = .unified) (units : cfg.unitsPerInstr = 1)
    (s : State.Of 16 pcw) (a v : Word) {p : PC pcw} (present : p.toNat < cfg.imemWords) :
    instrAt cfg (placeData s a v) p = if p.toNat = a.toNat then some v else instrAt cfg s p := by
  simp only [instrAt, programWord, h, units, Nat.mod_one, Nat.div_one, present, placeData_dmem]
  by_cases same : p.toNat = a.toNat
  · simp [same]
  · simp [same, Memory.lookup_insert_ne]

/-- Settles O50: a store that completes has placed one data word. -/
theorem storeAndFetchUnderEitherOrganisation : Obligations.StoreAndFetchUnderEitherOrganisation := by
  refine ⟨fun xlen pcw cfg rs2 rs1 off4 s t h harvard a => ?_, fun pcw cfg rs2 rs1 off4 s t h unified units a present => ?_⟩
  · rw [eq_of_execWith_store h, instrAt_advance, instrAt_placeData_of_harvard harvard]
  · rw [eq_of_execWith_store h, instrAt_advance, instrAt_placeData_of_unified unified units _ _ _ present]

/-! ### The other parameters -/

/-- Settles O49: the three functions stand only where the arithmetic instructions and cmp set S. -/
theorem flagFunctionsReachOnlyS : Obligations.FlagFunctionsReachOnlyS := by
  intro xlen pcw cfg f g h i s t ran
  cases i
  case add | sub | addi | cmp =>
    cases ran
    exact ⟨_, rfl⟩
  all_goals exact ⟨t.sFlag, ran⟩

theorem compareFields_of_bit0IsMsb {cfg : Config xlen pcw} (h : cfg.bit0IsMsb = true) (w : InstrWord) :
    compareFields cfg w = (w.extractLsb' 8 4, w.extractLsb' 4 4) := by
  simp [compareFields, documentOrder, fieldValue, h]

/-- Settles O60: the step answers `reservedWith`, one of its three cases under each value. -/
theorem reservedWordUnderEachValue : Obligations.ReservedWordUnderEachValue := by
  intro xlen pcw cfg s w v msb fetched reserved
  obtain ⟨rfl, -⟩ := decodeWith_eq_reserved reserved
  have answers : stepWith cfg s = reservedWith cfg v s := by simp only [stepWith, fetched, reserved]
  rw [answers]
  refine ⟨fun stop => ?_, fun compare => ?_, fun nothing => ?_⟩
  · simp only [reservedWith, stop]
  · simp only [reservedWith, compare, compareFields_of_bit0IsMsb msb]
    rfl
  · simp only [reservedWith, nothing]
    rfl

/-- Settles O55: the laws of the parametric machine at the defaults. -/
theorem machineIsParametricAtDefaults : Obligations.MachineIsParametricAtDefaults :=
  ⟨execWith_params, stepWith_params, rfl⟩

/-- Settles O48: each default stands in `params`, and the flag functions there are the carry and the borrow. -/
theorem defaultParameters : Obligations.DefaultParameters :=
  ⟨rfl, rfl, rfl, rfl, rfl, rfl, rfl, rfl, rfl, rfl, rfl, rfl, addCarry_eq_true, subBorrow_eq_true, fun _ _ => rfl,
    fun _ _ _ => rfl, rfl⟩

/-! ### add and addi on this machine -/

/-- Settles O12: the equation of add names its next state; S is the carry. -/
theorem addWritesSumAndFlags : Obligations.AddWritesSumAndFlags := by
  intro rd rs1 rs2 s
  obtain ⟨registers, data, program⟩ := finishResult_setSpecific_frame s (addCarry (readReg s rs1) (readReg s rs2)) rd
    (readReg s rs1 + readReg s rs2)
  refine ⟨_, exec_add s rd rs1 rs2, ?sum, finishResult_zFlag_iff .., addCarry_eq_true_iff .., registers, data, program, rfl⟩
  rw [readReg_finishResult_self, BitVec.toNat_add]

/-- The carry out of the sum with a signed operand: for a negative one it says that the sum did not go below zero (D10). -/
theorem addiCarry_eq_true_iff (a : Word) (imm8 : BitVec 8) : addiCarry a imm8 = true ↔
    if imm8.toInt < 0 then (0 : Int) ≤ a.toNat + imm8.toInt else (2 ^ 16 : Int) ≤ a.toNat + imm8.toInt := by
  have value := immOperand_toInt (xlen := 16) (by decide) imm8
  rw [addiCarry_eq, addCarry_eq_true, ← value, BitVec.toInt_eq_toNat_cond]
  have := (immOperand imm8 : Word).isLt
  change 65536 ≤ a.toNat + (immOperand imm8 : Word).toNat ↔ _
  split <;> split <;> omega

/-- Settles O13: the equation of addi names its next state; S is the carry with the sign-extended immediate. -/
theorem addiWritesSumAndFlags : Obligations.AddiWritesSumAndFlags := by
  intro rd imm8 s
  obtain ⟨registers, data, program⟩ := finishResult_setSpecific_frame s (addiCarry (readReg s rd) imm8) rd
    (readReg s rd + immOperand imm8)
  refine ⟨_, exec_addi s rd imm8, ?sum, finishResult_zFlag_iff .., addiCarry_eq_true_iff .., registers, data, program, rfl⟩
  rw [readReg_finishResult_self, add_immOperand_toNat_eq_emod (by decide)]

/-- The immediate of the idiom, negated: -128 is in range, 128 is not (U3). -/
theorem toInt_ofInt_neg {k : Nat} (h : k ≤ 128) : (BitVec.ofInt 8 (-k)).toInt = -k := by
  rw [BitVec.toInt_ofInt, Int.bmod_eq_of_le] <;> omega

/-- Settles O46: addi with the negated constant, its three numbers read as those of a subtraction. -/
theorem subtractImmediateIdiom : Obligations.SubtractImmediateIdiom := by
  intro rd k s positive small
  obtain ⟨t, ran, sum, zero, carry, -⟩ := addiWritesSumAndFlags rd (BitVec.ofInt 8 (-k)) s
  rw [toInt_ofInt_neg small] at sum carry
  have old := (readReg s rd).isLt
  refine ⟨t, ran, BitVec.eq_of_toNat_eq ?_, ?_, ?_⟩
  · have difference := sub_toNat_eq_emod (readReg s rd) (BitVec.ofNat 16 k)
    rw [BitVec.toNat_ofNat] at difference
    omega
  · rw [zero, ← BitVec.toNat_inj]
    change (readReg t rd).toNat = 0 ↔ _
    omega
  · rw [carry, if_pos (by omega)]
    omega

end Sys2Proof.Proofs

/-! SUPPORT. Reset and the program image (70_reset_and_hazards.md). The host places one word after another, so an image is
in place by induction on it; a word placed at pc is an image of one word. -/

namespace Sys2Proof.Proofs

open Sys2Proof.Machine Sys2Proof.Safety

/-- Settles O39: the reset state lists no word in either memory and zero in every register. -/
theorem resetState : Obligations.ResetState :=
  ⟨⟨rfl, rfl⟩, rfl, instrAt_params State.reset, readReg_reset, rfl, rfl⟩

/-- Settles O40: pc is 0, so the step fetches there; no data word is listed, so each has its initial content. -/
theorem executionBeginsAtAddressZero : Obligations.ExecutionBeginsAtAddressZero := by
  rintro s ⟨atZero, noData⟩
  rw [params_resetPc] at atZero
  refine ⟨fun unloaded => ?_, fun w i fetched decoded => step_of_instr (by rw [atZero, fetched]) decoded, fun a => ?_⟩
  · rw [step_of_unloaded (by rw [atZero, unloaded]), atZero]
    rfl
  · rw [dataWord, noData]
    rfl

theorem withFetchWord_eq (s : State) (w : InstrWord) : s.withFetchWord 16 w.toNat = placeInstr s s.pc w := by
  rw [State.withFetchWord, BitVec.toNat_mod_cancel, BitVec.ofNat_toNat, BitVec.setWidth_eq]

/-- Settles O9: placing an instruction word changes that word alone. -/
theorem placedWordIsFetchedNext : Obligations.PlacedWordIsFetchedNext := by
  intro s w
  rw [withFetchWord_eq]
  exact ⟨instrAt_placeInstr_self s s.pc w, rfl, fun _ _ => rfl, ⟨rfl, rfl⟩, fun _ _ => rfl,
    fun _ elsewhere => instrAt_placeInstr_ne s w elsewhere⟩

/-- An image of at most 2^16 words placed from an address on: a word is the image's where its distance from that address,
modulo 2^16, is below the image's length. -/
theorem instrAt_loadImageFrom (image : List InstrWord) (start a : PC) (s : State) (h : image.length ≤ 2 ^ 16) :
    instrAt params (loadImageFrom image start s) a = image[(a - start).toNat]?.or (instrAt params s a) := by
  induction image generalizing start s with
  | nil => rfl
  | cons w rest ih =>
    rw [List.length_cons] at h
    rw [loadImageFrom, ih _ _ (by omega)]
    by_cases first : a = start
    · have past : rest[(a - (start + 1)).toNat]? = none := List.getElem?_eq_none (by bv_omega)
      have here : (a - start).toNat = 0 := by bv_omega
      rw [past, here, first, instrAt_placeInstr_self]
      rfl
    · have next : (a - start).toNat = (a - (start + 1)).toNat + 1 := by bv_omega
      rw [instrAt_placeInstr_ne s w first, next, List.getElem?_cons_succ]

/-- Settles O41: the image is placed from address 0 on, so the distance is the address. -/
theorem loadedImageIsInPlace : Obligations.LoadedImageIsInPlace := by
  intro image s h a
  rw [loadImage, instrAt_loadImageFrom image _ a s h, params_resetPc, sub_zero]
  split
  case isTrue inside => rw [List.getElem?_eq_getElem inside, Option.some_or]
  case isFalse outside => rw [List.getElem?_eq_none (Nat.le_of_not_lt outside), Option.none_or]

end Sys2Proof.Proofs
